-- ==== Sys2Proof/Word.lean ====
section
/-! DEFINITION. The one word type of the prak4 core: the unsigned byte. -/

namespace Sys2Proof

/-- An unsigned 8-bit value: a program byte, an operand byte, a register value, a data-memory cell
(00_scope.md R10, R16; 30_encoding.md R61). Addresses and the pc are natural numbers, because no sum on
them wraps (R11, R14). -/
abbrev Byte := BitVec 8

end Sys2Proof
end

