-- ==== Sys2Proof/Config.lean ====
section
/-! DEFINITION. What is fixed for every prak4 core: the numbers of 00_scope.md §3 and the names of the four
instructions. `MEM_LEN` and the Program are inputs of a run, not configuration: they stand in State
(DESIGN CHOICE, notes/assumptions/1.md). The spec leaves no value free, so no opaque constant stands here. -/

namespace Sys2Proof

/-- The default of the parameter `MEM_LEN` (R8). -/
def Config.defaultMemLen : Nat := 256

/-- The length in bytes of the longest instruction (R68). -/
def Config.longestWidth : Nat := 5

/-- The four instruction names of the Instruction Table (R2, R63). Their opcodes, arities and widths are in
Decode.lean. -/
inductive Mnemonic where
  | loadConst
  | readMem
  | bitOr
  | writeMem
deriving DecidableEq, Repr

end Sys2Proof
end

