-- ==== Sys2Proof/Syntax.lean ====
section
/-! DEFINITION. The decoded instruction, one constructor for each row of spec/opcode_table.json. -/

namespace Sys2Proof

/-- A decoded instruction with all its operand bytes, in the order A, B, C(, D) of R15. A is kept although no
instruction uses it (R66). Every operand is a whole byte and every byte value is legal (R62), so a value of this
type is always a legal instruction. The roles of the bytes are those of R64. -/
inductive Instr where
  /-- `LOAD_CONST A B C` (R100): B is the destination register, C the constant. -/
  | loadConst (a b c : Byte)
  /-- `READ_MEM A B C D` (R120): B is the address base register, C the offset, D the destination register. -/
  | readMem (a b c d : Byte)
  /-- `OR A B C D` (R104): B and C are the source registers, D the destination register. -/
  | bitOr (a b c d : Byte)
  /-- `WRITE_MEM A B C` (R125): B is the address register, C the value register. -/
  | writeMem (a b c : Byte)
deriving DecidableEq, Repr

end Sys2Proof
end

