-- ==== Sys2Proof/Decode.lean ====
section
/-! DEFINITION. The Instruction Table, the decoder and the encoder (30_encoding.md, 40_fetch_decode.md §1), and the
byte layout of a word of spec/opcode_table.json. -/

namespace Sys2Proof

/-- The opcode byte (R63). -/
def Mnemonic.opcode : Mnemonic → Byte
  | .loadConst => 9
  | .readMem => 12
  | .bitOr => 17
  | .writeMem => 27

/-- The number of operand bytes (R63). -/
def Mnemonic.arity : Mnemonic → Nat
  | .loadConst => 3
  | .readMem => 4
  | .bitOr => 4
  | .writeMem => 3

/-- The length of an instruction in bytes: 1 + arity (R60, R83). -/
def Mnemonic.width (m : Mnemonic) : Nat := 1 + m.arity

/-- Opcode dispatch: the whole byte is compared with the four values of R63, and each of the 252 others is
illegal (R67, R82). -/
def Mnemonic.ofOpcode (op : Byte) : Option Mnemonic :=
  if op = 9 then some .loadConst
  else if op = 12 then some .readMem
  else if op = 17 then some .bitOr
  else if op = 27 then some .writeMem
  else none

/-- The match value of the instruction's pattern (R69), byte 0 first (R70). -/
def Mnemonic.patternMatch : Mnemonic → Nat
  | .loadConst => 0x09000000
  | .readMem => 0x0C00000000
  | .bitOr => 0x1100000000
  | .writeMem => 0x1B000000

/-- The mask of the instruction's pattern (R69). -/
def Mnemonic.patternMask : Mnemonic → Nat
  | .loadConst => 0xFF000000
  | .readMem => 0xFF00000000
  | .bitOr => 0xFF00000000
  | .writeMem => 0xFF000000

def Instr.mnemonic : Instr → Mnemonic
  | .loadConst _ _ _ => .loadConst
  | .readMem _ _ _ _ => .readMem
  | .bitOr _ _ _ _ => .bitOr
  | .writeMem _ _ _ => .writeMem

/-- The operand bytes in the order A, B, C(, D) (R15, R84). -/
def Instr.operands : Instr → List Byte
  | .loadConst a b c => [a, b, c]
  | .readMem a b c d => [a, b, c, d]
  | .bitOr a b c d => [a, b, c, d]
  | .writeMem a b c => [a, b, c]

def Instr.width (i : Instr) : Nat := i.mnemonic.width

/-- Why no instruction is decoded. The first two are the decode faults of R140. The third is no fault of the
spec: a decode outside the Program is unreachable and has no stated result (N17, I8). -/
inductive DecodeError where
  | unknownOpcode (opcode : Byte) (pc : Nat)
  | truncatedInstruction (opcode : Byte) (pc : Nat)
  | noOpcodeByte (pc : Nat)
deriving DecidableEq, Repr

/-- The program byte `P[i]` (R14). `decodeAt` asks only for indices below `PROG_LEN` (R81), so the default is
never used. -/
def byteAt (P : List Byte) (i : Nat) : Byte := P.getD i 0

/-- Operand extraction: the operand bytes follow the opcode byte at pc in increasing address order (R84). -/
def instrAt (m : Mnemonic) (P : List Byte) (pc : Nat) : Instr :=
  match m with
  | .loadConst => .loadConst (byteAt P (pc + 1)) (byteAt P (pc + 2)) (byteAt P (pc + 3))
  | .readMem =>
    .readMem (byteAt P (pc + 1)) (byteAt P (pc + 2)) (byteAt P (pc + 3)) (byteAt P (pc + 4))
  | .bitOr =>
    .bitOr (byteAt P (pc + 1)) (byteAt P (pc + 2)) (byteAt P (pc + 3)) (byteAt P (pc + 4))
  | .writeMem => .writeMem (byteAt P (pc + 1)) (byteAt P (pc + 2)) (byteAt P (pc + 3))

/-- The decoder (R85): the opcode check first (R82), then the width check (R83), then the operands (R84). It
answers the instruction and `new_pc = pc + width`. -/
def decodeAt (P : List Byte) (pc : Nat) : Except DecodeError (Instr × Nat) :=
  match P[pc]? with
  | none => .error (.noOpcodeByte pc)
  | some op =>
    match Mnemonic.ofOpcode op with
    | none => .error (.unknownOpcode op pc)
    | some m =>
      if P.length < pc + m.width then .error (.truncatedInstruction op pc)
      else .ok (instrAt m P pc, pc + m.width)

/-- The encoder: the opcode byte, then the operand bytes (R74). -/
def encode (i : Instr) : List Byte := i.mnemonic.opcode :: i.operands

/-- The bytes of a word of spec/opcode_table.json. The table numbers the bits of the whole pattern with byte 0 at
the top (R61, R69, R70), so byte 0 is the most significant byte of the nbits-bit number
(DEDUCED, notes/assumptions/7.md). The instruction's bits beyond nbits are 0: the bytes are filled up with zeros to the
length of the longest instruction. -/
def tableBytes (nbits w : Nat) : List Byte :=
  let n := nbits / 8
  let given := (List.range n).map fun k => BitVec.ofNat 8 (w >>> (8 * (n - 1 - k)))
  given ++ List.replicate (Config.longestWidth - n) 0

/-- What the decoder reads from a table word. -/
def decodeTableWord (nbits w : Nat) : Option Instr :=
  match decodeAt (tableBytes nbits w) 0 with
  | .ok (i, _) => some i
  | .error _ => none

/-- The program with `bs` placed at byte index `pc`: bytes before are kept (filled up with zeros where the program
is shorter), and so are the bytes after. -/
def spliceAt (P : List Byte) (pc : Nat) (bs : List Byte) : List Byte :=
  P.take pc ++ List.replicate (pc - P.length) 0 ++ bs ++ P.drop (pc + bs.length)

end Sys2Proof
end

