-- ==== Sys2Proof/Machine/State.lean ====
section
/-! DEFINITION. The state of the prak4 core as plain data (10_state.md), the reasons a step can stop, and reset. -/

namespace Sys2Proof.Machine

/-- The run state (R21). `halted` is the success-terminal state, `faulted` the terminal state after a fault. -/
inductive RunState where
  | running
  | halted
  | faulted
deriving DecidableEq, Repr

/-- The fault record (R31, R142): the kind of the fault that ended the run, and where. -/
inductive FaultRecord where
  | unknownOpcode (opcode : Byte) (pc : Nat)
  | truncatedInstruction (opcode : Byte) (pc : Nat)
  | outOfBounds (address : Nat) (pc : Nat)
deriving DecidableEq, Repr

/-- The register file: 256 registers of 8 bits, the register with index `i` at place `i` (R9, R23). -/
structure RegFile where
  regs : List Byte
  size : regs.length = 256
deriving DecidableEq, Repr

/-- The register file after reset: every register is 0 (R24, R36). -/
def RegFile.zero : RegFile := ⟨List.replicate 256 0, List.length_replicate ..⟩

/-- Data memory: the cells that do not hold 0, by rising address (`Memory.wf`, Machine/Ops.lean). A cell that is not
listed reads 0, its reset value (R28, R36; DEDUCED, notes/assumptions/5.md). -/
abbrev Memory := List Host.Cell

/-- The architectural state (R20), and the two inputs of a run (R8, R30), which are fixed while it lasts
(DESIGN CHOICE, notes/assumptions/1.md). -/
structure State where
  /-- The run state (R21). -/
  run : RunState
  /-- The program counter: the byte index of the next undecoded instruction's opcode byte (R22). -/
  pc : Nat
  /-- The register file, indexed 0 to 255 (R23). -/
  x : RegFile
  /-- The data memory (R28). -/
  mem : Memory
  /-- The fault record (R31). -/
  fault : Option FaultRecord
  /-- The read-only program store `P`; `PROG_LEN` is its length (R30). -/
  prog : List Byte
  /-- The parameter `MEM_LEN`, the number of data cells (R8). -/
  memLen : Nat
deriving DecidableEq, Repr

/-- Why `step` stops. None of these is a fault of the spec: a fault of R140 is a next state whose run state is
`faulted` (DEDUCED, notes/assumptions/4.md). -/
inductive Fault where
  /-- Raised by `step` in the Halted state: no step is enabled (R21, I7). Safe. -/
  | stepInHalted
  /-- Raised by `step` in the Faulted state: no step is enabled (R21, I7). Safe. -/
  | stepInFaulted
  /-- Raised by `step` in a Running state whose pc is not below `PROG_LEN`. No run reaches such a state (R80, N17,
  I8; DESIGN CHOICE, notes/assumptions/6.md). Safe. -/
  | pcOutsideProgram
deriving DecidableEq, Repr

/-- Why an instruction has no meaning. -/
inductive Refusal where
  /-- Would be raised by an arm of `exec` whose instruction has no meaning yet; every arm has one. Safe. -/
  | notModelled (mnemonic : String)
deriving DecidableEq, Repr

/-- The state in which a run of the program `P` with `MEM_LEN = memLen` starts (R36, R160). With an empty program the
run is Halted at once (R161). -/
def State.resetWith (P : List Byte) (memLen : Nat) : State where
  run := if P = [] then .halted else .running
  pc := 0
  x := RegFile.zero
  mem := []
  fault := none
  prog := P
  memLen := memLen

/-- The machine after reset with no program loaded and the default `MEM_LEN` (R8, R36, R161;
DESIGN CHOICE, notes/assumptions/2.md). -/
def State.reset : State := State.resetWith [] Config.defaultMemLen

end Sys2Proof.Machine
end

