-- ==== Sys2Proof/Machine/Flags.lean ====
section
/-! DEFINITION. The core has no flags or condition codes (R32). Its only status is the run state and the fault
record: here is how the run state follows from the pc, and the numeric code of the status interface. -/

namespace Sys2Proof.Machine

/-- The run state after a successful step that moved the pc to `npc`: Halted exactly at the end of the
Program, otherwise unchanged (R89). Outside Running no step calls it (DESIGN CHOICE, notes/assumptions/12.md). -/
def runAfter (run : RunState) (npc progLen : Nat) : RunState :=
  if npc = progLen then .halted else run

/-- The status code of a fault (R142, D7); 0 means no fault. -/
def statusCode : Option FaultRecord → Nat
  | none => 0
  | some (.unknownOpcode _ _) => 1
  | some (.truncatedInstruction _ _) => 2
  | some (.outOfBounds _ _) => 3

end Sys2Proof.Machine
end

