-- ==== Sys2Proof/Machine/Ops.lean ====
section
/-! DEFINITION. The named operations every instruction is written with: register and memory access, raising a fault,
and completing an instruction. -/

namespace Sys2Proof.Machine

/-- The value of cell `a`; a cell that is not listed holds 0 (R28, R122). -/
def Memory.read (a : Nat) : Memory → Byte
  | [] => 0
  | (b, w) :: rest => if a = b then w else Memory.read a rest

/-- Set cell `a` to `v` and keep every other cell (R126). The list stays in canonical form: writing 0 removes the
entry. -/
def Memory.write (a : Nat) (v : Byte) : Memory → Memory
  | [] => if v = 0 then [] else [(a, v)]
  | (b, w) :: rest =>
    if a < b then (if v = 0 then (b, w) :: rest else (a, v) :: (b, w) :: rest)
    else if a = b then (if v = 0 then rest else (a, v) :: rest)
    else (b, w) :: Memory.write a v rest

/-- The canonical form, for entries at addresses from `lo` up: strictly rising addresses, no entry equal to 0. -/
def Memory.wfFrom (lo : Nat) : Memory → Bool
  | [] => true
  | (a, v) :: rest => decide (lo ≤ a) && decide (v ≠ 0) && Memory.wfFrom (a + 1) rest

/-- The canonical form of data memory: equal memories are equal lists. -/
def Memory.wf (m : Memory) : Bool := Memory.wfFrom 0 m

/-- The value of register `i`. -/
def RegFile.get (x : RegFile) (i : Byte) : Byte := x.regs[i.toNat]'(x.size ▸ i.isLt)

/-- The register file with register `i` replaced by `v`. -/
def RegFile.set (x : RegFile) (i : Byte) (v : Byte) : RegFile :=
  ⟨x.regs.set i.toNat v, List.length_set.trans x.size⟩

/-- Read register `i` (R14, R24). Every index names a register, none is hard-wired (R23, R26). -/
def State.readReg (s : State) (i : Byte) : Byte := s.x.get i

/-- Replace the value of register `i` and keep every other register (R101). -/
def State.writeReg (s : State) (i : Byte) (v : Byte) : State :=
  { s with x := s.x.set i v }

/-- `MemRead(a, 1)` (R122). -/
def State.readCell (s : State) (a : Nat) : Byte := s.mem.read a

/-- `MemWrite(a, 1, v)` (R126). -/
def State.writeCell (s : State) (a : Nat) (v : Byte) : State :=
  { s with mem := s.mem.write a v }

/-- Taking a fault, the only exception the core has (R141): the run becomes Faulted and the record is kept; pc,
registers and memory do not change. There is no handler (R145) and no return (R146). -/
def State.raise (s : State) (f : FaultRecord) : State :=
  { s with run := .faulted, fault := some f }

/-- The pc sequencer after a successful execution: pc moves past the instruction (R87), and the run halts at the end
of the Program (R89). -/
def State.complete (s : State) (width : Nat) : State :=
  { s with pc := s.pc + width, run := runAfter s.run (s.pc + width) s.prog.length }

/-- The bounds check before a data access (R44): in bounds the instruction gives `done`, otherwise it raises
OutOfBounds and does nothing else (R127). The address is compared at its full width, never wrapped. -/
def State.access (s : State) (addr : Nat) (done : State) : State :=
  if addr < s.memLen then done else s.raise (.outOfBounds addr s.pc)

/-- The step of a Running state that decodes no instruction: it raises the decode fault (R82, R83), or is stuck where
there is no opcode byte (N17). -/
def State.decodeFault (s : State) : DecodeError → Host.Outcome State Fault Refusal
  | .unknownOpcode op p => .next (s.raise (.unknownOpcode op p))
  | .truncatedInstruction op p => .next (s.raise (.truncatedInstruction op p))
  | .noOpcodeByte _ => .fault .pcOutsideProgram

end Sys2Proof.Machine
end

