-- ==== Sys2Proof/Machine/Operands.lean ====
section
/-! DEFINITION. The two addressing modes (R128), and which registers and cell an instruction reads and writes
(R25). -/

namespace Sys2Proof.Machine

/-- READ_MEM's address: the exact sum of the zero-extended base register and offset, in [0, 510] (R65, R121). -/
def readMemAddress (s : State) (b c : Byte) : Nat := (s.readReg b).toNat + c.toNat

/-- WRITE_MEM's address: the register alone, in [0, 255] (R126). -/
def writeMemAddress (s : State) (b : Byte) : Nat := (s.readReg b).toNat

/-- The data address an instruction accesses in state `s`, if it accesses data memory (R45). -/
def dataAddress (i : Instr) (s : State) : Option Nat :=
  match i with
  | .loadConst _ _ _ => none
  | .readMem _ b c _ => some (readMemAddress s b c)
  | .bitOr _ _ _ _ => none
  | .writeMem _ b _ => some (writeMemAddress s b)

/-- The data address an instruction stores to in state `s`, if it stores (R29: only WRITE_MEM does). -/
def storeAddress (i : Instr) (s : State) : Option Nat :=
  match i with
  | .loadConst _ _ _ => none
  | .readMem _ _ _ _ => none
  | .bitOr _ _ _ _ => none
  | .writeMem _ b _ => some (writeMemAddress s b)

/-- The register an instruction writes, if it writes one (R25). -/
def destReg : Instr → Option Byte
  | .loadConst _ b _ => some b
  | .readMem _ _ _ d => some d
  | .bitOr _ _ _ d => some d
  | .writeMem _ _ _ => none

/-- The registers an instruction reads (R25). -/
def sourceRegs : Instr → List Byte
  | .loadConst _ _ _ => []
  | .readMem _ b _ _ => [b]
  | .bitOr _ b c _ => [b, c]
  | .writeMem _ b c => [b, c]

end Sys2Proof.Machine
end

