-- ==== Sys2Proof/Machine/MemoryOps.lean ====
section
/-! DEFINITION. The instructions that reach data memory: READ_MEM and WRITE_MEM (42_memory_ops.md). -/

namespace Sys2Proof.Machine

/-- `READ_MEM A B C D` (R120): x[D] <- M[x[B] + C], or OutOfBounds. A is ignored (R66). -/
def execReadMem (_a b c d : Byte) (s : State) : Host.Outcome State Fault Refusal :=
  let addr := readMemAddress s b c
  .next (s.access addr ((s.writeReg d (s.readCell addr)).complete Mnemonic.readMem.width))

/-- `WRITE_MEM A B C` (R125): M[x[B]] <- x[C], or OutOfBounds. A is ignored (R66). -/
def execWriteMem (_a b c : Byte) (s : State) : Host.Outcome State Fault Refusal :=
  let addr := writeMemAddress s b
  .next (s.access addr ((s.writeCell addr (s.readReg c)).complete Mnemonic.writeMem.width))

end Sys2Proof.Machine
end

