-- ==== Sys2Proof/Machine/RegisterOps.lean ====
section
/-! DEFINITION. The instructions that touch only the register file: LOAD_CONST and OR (41_register_ops.md). -/

namespace Sys2Proof.Machine

/-- `LOAD_CONST A B C` (R100): x[B] <- C. A is ignored (R66). -/
def execLoadConst (_a b c : Byte) (s : State) : Host.Outcome State Fault Refusal :=
  .next ((s.writeReg b c).complete Mnemonic.loadConst.width)

/-- `OR A B C D` (R104): x[D] <- x[B] | x[C], both sources read before the write. The OR is the
bit-by-bit one of R105 (PRESUMED, notes/assumptions/13.md). A is ignored (R66). -/
def execBitOr (_a b c d : Byte) (s : State) : Host.Outcome State Fault Refusal :=
  .next ((s.writeReg d (s.readReg b ||| s.readReg c)).complete Mnemonic.bitOr.width)

end Sys2Proof.Machine
end

