-- ==== Sys2Proof/Machine/Dispatch.lean ====
section
/-! DEFINITION. Execute dispatch: one arm for each constructor of Instr (R86). -/

namespace Sys2Proof.Machine

def exec (i : Instr) (s : State) : Host.Outcome State Fault Refusal :=
  match i with
  | .loadConst a b c => Sys2Proof.Machine.execLoadConst a b c s
  | .readMem a b c d => Sys2Proof.Machine.execReadMem a b c d s
  | .bitOr a b c d => Sys2Proof.Machine.execBitOr a b c d s
  | .writeMem a b c => Sys2Proof.Machine.execWriteMem a b c s

end Sys2Proof.Machine
end

