-- ==== Sys2Proof/Machine/Step.lean ====
section
/-! DEFINITION. One step of the core (R90), and the placing of an instruction where the next step fetches. -/

namespace Sys2Proof.Machine

/-- One step (R90). It is enabled exactly in the Running state (R80); the decoder reads the instruction at pc, and
its meaning runs or the decode fault is raised. `exec` itself moves pc to the decoder's `new_pc` (R87). -/
def step (s : State) : Host.Outcome State Fault Refusal :=
  match s.run with
  | .halted => .fault .stepInHalted
  | .faulted => .fault .stepInFaulted
  | .running =>
    match decodeAt s.prog s.pc with
    | .ok (i, _) => exec i s
    | .error e => s.decodeFault e

/-- `s` with the table word `w` of `nbits` bits placed in the program store at pc, so that the next step runs it. It
stands for the loading of a program from outside (R160, R162): the program store holds the word's bytes at pc, and the
run is Running with no fault record, as it is after a reset with that program (DESIGN CHOICE, notes/assumptions/2.md). -/
def State.withFetchWord (s : State) (nbits w : Nat) : State :=
  { s with prog := spliceAt s.prog s.pc (tableBytes nbits w), run := .running, fault := none }

end Sys2Proof.Machine
end

