-- ==== Sys2Proof/WellFormed.lean ====
section
/-! DEFINITION. Which instruction terms are well formed. A value of `Instr` always is (R62: every operand byte
value is legal); the checks stand on the untyped form `Instruction(mnemonic, operands)` of R84, which the assembler
builds from text and the trace port shows. -/

namespace Sys2Proof

/-- The untyped form of an instruction: a mnemonic and its operands A, B, C(, D) as numbers (R84, R72). -/
structure RawInstr where
  mnemonic : Mnemonic
  operands : List Nat
deriving DecidableEq, Repr

/-- The operand count is the mnemonic's arity (R60, R73 WrongOperandCount). -/
def RawInstr.countOk (r : RawInstr) : Bool := r.operands.length == r.mnemonic.arity

/-- Every operand is in [0, 255] (R62, R73 OperandOutOfRange). -/
def RawInstr.rangeOk (r : RawInstr) : Bool := r.operands.all fun n => decide (n < 256)

def RawInstr.wellFormed (r : RawInstr) : Bool := r.countOk && r.rangeOk

def Instr.toRaw (i : Instr) : RawInstr := ⟨i.mnemonic, i.operands.map BitVec.toNat⟩

/-- An instruction is well formed when its untyped form is. -/
def Instr.wellFormed (i : Instr) : Bool := i.toRaw.wellFormed

end Sys2Proof
end

