-- ==== Sys2Proof/Machine/Assembler.lean ====
section
/-! DEFINITION. The assembler, the collaborator that produces a Program (30_encoding.md §4, R71 to R76). It is outside the
core (R5) and no rule of the core rests on it; it stands here so that the programs of the spec can be written as
text. What the spec leaves open of it is a DESIGN CHOICE, notes/assumptions/10.md. -/

namespace Sys2Proof.Machine

/-- The assembler's errors, each with its source line, counted from 1 (R73). -/
inductive AsmError where
  | unknownMnemonic (line : Nat)
  | wrongOperandCount (line : Nat)
  | operandOutOfRange (line : Nat)
deriving DecidableEq, Repr

/-- Cut a text at every separator character. -/
def splitText (sep : Char → Bool) : List Char → List (List Char)
  | [] => [[]]
  | ch :: rest =>
    if sep ch then [] :: splitText sep rest
    else
      match splitText sep rest with
      | [] => [[ch]]
      | t :: ts => (ch :: t) :: ts

/-- The characters that separate tokens within a line: space, tab and carriage return (DESIGN CHOICE,
notes/assumptions/10.md). -/
def isBlank (ch : Char) : Bool := ch == ' ' || ch == '\t' || ch == '\r'

/-- A `#` begins a comment that extends to the end of the line (R71). -/
def stripComment (line : List Char) : List Char := line.takeWhile fun ch => ch != '#'

/-- The whitespace-separated tokens of a line, comment left out (R71). -/
def lineTokens (line : List Char) : List (List Char) :=
  (splitText isBlank (stripComment line)).filter fun t => !t.isEmpty

/-- The name of an instruction as the assembler spells it (R72). -/
def mnemonicSpelling : Mnemonic → List Char
  | .loadConst => ['L', 'O', 'A', 'D', '_', 'C', 'O', 'N', 'S', 'T']
  | .readMem => ['R', 'E', 'A', 'D', '_', 'M', 'E', 'M']
  | .bitOr => ['O', 'R']
  | .writeMem => ['W', 'R', 'I', 'T', 'E', '_', 'M', 'E', 'M']

/-- The mnemonic of a token; matching is case-insensitive (R72). -/
def parseMnemonic (token : List Char) : Option Mnemonic :=
  [Mnemonic.loadConst, .readMem, .bitOr, .writeMem].find? fun m =>
    mnemonicSpelling m == token.map Char.toUpper

/-- The value of a token of decimal digits (R72, D15). -/
def parseDecimal (token : List Char) : Option Nat :=
  if token.isEmpty || !token.all Char.isDigit then none
  else some (token.foldl (fun n ch => 10 * n + (ch.toNat - 48)) 0)

/-- A decimal digit as a character. -/
def digitChar (n : Nat) : Char := Char.ofNat (48 + n)

/-- A byte written in decimal, without leading zeros. -/
def decimalToken (b : Byte) : List Char :=
  let n := b.toNat
  if n < 10 then [digitChar n]
  else if n < 100 then [digitChar (n / 10), digitChar (n % 10)]
  else [digitChar (n / 100), digitChar (n / 10 % 10), digitChar (n % 10)]

/-- The typed instruction of a well-formed untyped one; an ill-formed one has none. -/
def instrOfRaw (r : RawInstr) : Option Instr :=
  if r.rangeOk then
    match r.mnemonic, r.operands.map (BitVec.ofNat 8) with
    | .loadConst, [a, b, c] => some (.loadConst a b c)
    | .readMem, [a, b, c, d] => some (.readMem a b c d)
    | .bitOr, [a, b, c, d] => some (.bitOr a b c d)
    | .writeMem, [a, b, c] => some (.writeMem a b c)
    | _, _ => none
  else none

/-- The operand values of the tokens, none where a token is no decimal number. -/
def parseOperands : List (List Char) → Option (List Nat)
  | [] => some []
  | t :: ts =>
    match parseDecimal t, parseOperands ts with
    | some n, some ns => some (n :: ns)
    | _, _ => none

/-- One instruction line, given as its tokens, on source line `line` (R71 to R73). The mnemonic is checked first, then
the operand count, then the operands; a token that is no decimal number is an operand out of range (DESIGN CHOICE,
notes/assumptions/10.md). -/
def assembleTokens (line : Nat) (mnemonic : List Char) (operands : List (List Char)) :
    Except AsmError Instr :=
  match parseMnemonic mnemonic with
  | none => .error (.unknownMnemonic line)
  | some m =>
    if operands.length ≠ m.arity then .error (.wrongOperandCount line)
    else
      match parseOperands operands with
      | none => .error (.operandOutOfRange line)
      | some ns =>
        match instrOfRaw ⟨m, ns⟩ with
        | none => .error (.operandOutOfRange line)
        | some i => .ok i

/-- The instructions of the source lines from line number `n` on; blank and comment-only lines are skipped (R71), and
the first error aborts the whole assembly (R73). -/
def assembleLines (n : Nat) : List (List Char) → Except AsmError (List Instr)
  | [] => .ok []
  | line :: rest =>
    match lineTokens line with
    | [] => assembleLines (n + 1) rest
    | m :: ops =>
      match assembleTokens n m ops with
      | .error e => .error e
      | .ok i =>
        match assembleLines (n + 1) rest with
        | .error e => .error e
        | .ok is => .ok (i :: is)

/-- The instructions of a source text, one instruction per line (R71). -/
def parseProgram (text : List Char) : Except AsmError (List Instr) :=
  assembleLines 1 (splitText (fun ch => ch == '\n') text)

/-- The output binary: the concatenation of the instructions' encodings in source order (R74). -/
def assemble (text : List Char) : Except AsmError (List Byte) :=
  match parseProgram text with
  | .error e => .error e
  | .ok is => .ok (is.flatMap encode)

end Sys2Proof.Machine
end

