-- ==== Sys2Proof/Machine/Sequencer.lean ====
section
/-! DEFINITION. The pc sequencer as the driver of a whole run: the core steps by itself while Running (R88). -/

namespace Sys2Proof.Machine

/-- The state after an outcome, where the outcome is a next state. -/
def nextState : Host.Outcome State Fault Refusal → Option State
  | .next t => some t
  | .fault _ => none
  | .refused _ => none

/-- One turn of the sequencer: a step where one is enabled, otherwise the state stays (R88, R21). -/
def State.advance (s : State) : State := (nextState (step s)).getD s

/-- `n` turns of the sequencer. -/
def State.drive : Nat → State → State
  | 0, s => s
  | n + 1, s => State.drive n s.advance

/-- The final state of the run of `P` from reset, the observation of the run (R164). A run ends within `PROG_LEN` steps
(R163), so as many turns reach its end. -/
def runProgram (P : List Byte) (memLen : Nat) : State :=
  State.drive P.length (State.resetWith P memLen)

end Sys2Proof.Machine
end

