-- ==== Sys2Proof/Machine/Ports.lean ====
section
/-! DEFINITION. The interfaces of the block (D8): reset, the status output, the snapshot port and the trace port. All
but reset only read the state. -/

namespace Sys2Proof.Machine

/-- Reset of a machine whose program store and `MEM_LEN` are loaded: a new run starts, and nothing of the old run
carries over (R160, D21). -/
def State.restart (s : State) : State := State.resetWith s.prog s.memLen

/-- The status output: the run state, the fault record with all its fields, and its code (R142, D7, D8). -/
structure StatusOutput where
  run : RunState
  fault : Option FaultRecord
  code : Nat
deriving DecidableEq, Repr

def State.status (s : State) : StatusOutput := ⟨s.run, s.fault, statusCode s.fault⟩

/-- The three answers of the snapshot port (R150). -/
inductive SnapshotAnswer where
  | ok (cells : List Byte)
  | rangeError
  | noSnapshot
deriving DecidableEq, Repr

/-- The cells `M[start]` to `M[stop]`, both ends included (R50, C3). -/
def State.cellRange (s : State) (start stop : Nat) : List Byte :=
  (List.range (stop - start + 1)).map fun k => s.readCell (start + k)

/-- The snapshot port: it answers only in Halted, checked before the range (R51), and there exactly the ranges
`0 ≤ start ≤ stop < MEM_LEN` (R50). It changes no state (R52). -/
def State.snapshot (s : State) (start stop : Nat) : SnapshotAnswer :=
  match s.run with
  | .running => .noSnapshot
  | .faulted => .noSnapshot
  | .halted =>
    if start ≤ stop ∧ stop < s.memLen then .ok (s.cellRange start stop) else .rangeError

/-- What the trace port reports of a step: success, or the fault (R151). -/
inductive TraceOutcome where
  | success
  | fault (f : FaultRecord)
deriving DecidableEq, Repr

/-- The report of the trace port at the end of a step (R151, D17): the pc of the instruction, its mnemonic and operands
with A included, and the outcome. Where decoding itself faulted no instruction was decoded
(DEDUCED, notes/assumptions/9.md). -/
structure TraceReport where
  pc : Nat
  instr : Option RawInstr
  outcome : TraceOutcome
deriving DecidableEq, Repr

/-- The instruction the decoder reads at pc, in the untyped form of R84. -/
def State.decoded (s : State) : Option RawInstr :=
  match decodeAt s.prog s.pc with
  | .ok (i, _) => some i.toRaw
  | .error _ => none

/-- The outcome of a step that ended in `t`. -/
def traceOutcome (t : State) : TraceOutcome :=
  match t.run, t.fault with
  | .faulted, some f => .fault f
  | .faulted, none => .success
  | .halted, _ => .success
  | .running, _ => .success

/-- The trace port's report of the step from `s`, none where no step is enabled. It is a function of the state and
never changes one (R151). -/
def State.trace (s : State) : Option TraceReport :=
  (nextState (step s)).map fun t => ⟨s.pc, s.decoded, traceOutcome t⟩

end Sys2Proof.Machine
end

