-- ==== Sys2Proof/Safety.lean ====
section
/-! DEFINITION. The terms claims are stated in: what a fault record says, the invariant of every state a run reaches, the
chain of instruction boundaries, and the history of a run's writes. -/

namespace Sys2Proof.Machine

/-- The fault record `f` tells the truth about the state `s` that holds it: its pc is the faulting instruction's, and
the cause that R142 gives for its kind holds there (R31, R142). A fault changes neither pc nor registers (R141), so the
address that was out of bounds can still be computed in `s`. -/
def FaultRecord.Explains (s : State) : FaultRecord → Prop
  | .unknownOpcode op p =>
    p = s.pc ∧ s.prog[s.pc]? = some op ∧ op ≠ 9 ∧ op ≠ 12 ∧ op ≠ 17 ∧ op ≠ 27
  | .truncatedInstruction op p =>
    p = s.pc ∧ s.prog[s.pc]? = some op ∧
      ((op = 9 ∨ op = 27) ∧ s.prog.length < s.pc + 4 ∨
        (op = 12 ∨ op = 17) ∧ s.prog.length < s.pc + 5)
  | .outOfBounds addr p =>
    p = s.pc ∧ s.memLen ≤ addr ∧ addr ≤ 510 ∧
      ∃ i npc, decodeAt s.prog s.pc = .ok (i, npc) ∧ dataAddress i s = some addr

/-- The invariant of every state a run reaches. -/
structure State.Inv (s : State) : Prop where
  /-- While Running, pc is inside the Program (R80) and there is no fault record (R31). -/
  running : s.run = .running → s.pc < s.prog.length ∧ s.fault = none
  /-- In Halted, pc is `PROG_LEN` and there is no fault record (R21, R31, R164). -/
  halted : s.run = .halted → s.pc = s.prog.length ∧ s.fault = none
  /-- In Faulted, pc is inside the Program and the fault record says what happened there (R31, R142, R164). -/
  faulted : s.run = .faulted →
    s.pc < s.prog.length ∧ ∃ f, s.fault = some f ∧ f.Explains s
  /-- Data memory is in canonical form. -/
  memWf : s.mem.wf = true
  /-- Every listed cell exists (R28) and was reachable by WRITE_MEM (R126). -/
  memBound : ∀ a v, (a, v) ∈ s.mem → a < s.memLen ∧ a < 256

/-- The byte index at which the k-th instruction of the Program starts, where the chain goes so far: `b(0) = 0` and
`b(k+1) = b(k) + width(P[b(k)])` (R93). -/
def boundary (P : List Byte) : Nat → Option Nat
  | 0 => some 0
  | k + 1 =>
    match boundary P k with
    | none => none
    | some b =>
      match P[b]? with
      | none => none
      | some op =>
        match Mnemonic.ofOpcode op with
        | none => none
        | some m => some (b + m.width)

/-- The store of the step from `s`, if it is a WRITE_MEM that does not fault: its address and value. -/
def storeOf (s : State) : List (Nat × Byte) :=
  match s.run, decodeAt s.prog s.pc with
  | .running, .ok (.writeMem _ b c, _) =>
    if writeMemAddress s b < s.memLen then [(writeMemAddress s b, s.readReg c)] else []
  | _, _ => []

/-- The stores of the first `k` steps from `s`, the latest first. -/
def storeLog : Nat → State → List (Nat × Byte)
  | 0, _ => []
  | k + 1, s =>
    match step s with
    | .next t => storeLog k t ++ storeOf s
    | .fault _ => []
    | .refused _ => []

/-- The register write of the step from `s`, if its instruction writes a register and does not fault: the register and
the value. -/
def regWriteOf (s : State) : List (Byte × Byte) :=
  match s.run, decodeAt s.prog s.pc with
  | .running, .ok (.loadConst _ b c, _) => [(b, c)]
  | .running, .ok (.bitOr _ b c d, _) => [(d, s.readReg b ||| s.readReg c)]
  | .running, .ok (.readMem _ b c d, _) =>
    if readMemAddress s b c < s.memLen then [(d, s.readCell (readMemAddress s b c))] else []
  | _, _ => []

/-- The register writes of the first `k` steps from `s`, the latest first. -/
def regWriteLog : Nat → State → List (Byte × Byte)
  | 0, _ => []
  | k + 1, s =>
    match step s with
    | .next t => regWriteLog k t ++ regWriteOf s
    | .fault _ => []
    | .refused _ => []

end Sys2Proof.Machine
end

