-- ==== Sys2Proof/Certificates/Slice0/Obligations.lean ====
section
/-! DEFINITION. The statements for the provers. Each docstring names the rule or the section of spec/ it comes from. -/

open Sys2Proof Sys2Proof.Machine

/-! ## Reset and the invariant -/

/-- Reset leaves every piece of state at the value of the table in 10_state.md §9, for every program and every
`MEM_LEN`. That `State.reset` itself has no program loaded and the default length is the model's choice (entry 2). -/
def Obligations.ResetStateValues : Prop :=
  (∀ (P : List Byte) (n : Nat),
    (State.resetWith P n).run = (if P.length = 0 then RunState.halted else .running) ∧
    (State.resetWith P n).pc = 0 ∧
    (∀ i, (State.resetWith P n).readReg i = 0) ∧
    (∀ a, (State.resetWith P n).readCell a = 0) ∧
    (State.resetWith P n).fault = none ∧
    (State.resetWith P n).prog = P ∧
    (State.resetWith P n).memLen = n) ∧
  State.reset = State.resetWith [] 256

/-- The invariant holds at reset, whatever program and `MEM_LEN` are loaded. -/
def Obligations.ResetMeetsInvariant : Prop :=
  (∀ (P : List Byte) (n : Nat), (State.resetWith P n).Inv) ∧ State.reset.Inv

/-- A reset forgets the run before it: it depends on the loaded program and `MEM_LEN` alone, and the new run starts at pc
0 with no fault record (70_reset_and_hazards.md §1, 10_state.md §8). -/
def Obligations.RestartForgetsOldRun : Prop :=
  ∀ s t : State, s.prog = t.prog → s.memLen = t.memLen →
    s.restart = t.restart ∧ s.restart.Inv ∧ s.restart.pc = 0 ∧ s.restart.fault = none ∧
      s.restart.prog = s.prog ∧ s.restart.memLen = s.memLen

/-- Every step keeps the invariant: pc inside the Program while Running and at its end when Halted, a fault record
exactly in Faulted and true there, memory in canonical form with no cell beyond `MEM_LEN` or 256. -/
def Obligations.StepKeepsInvariant : Prop :=
  ∀ s t : State, s.Inv → step s = .next t → t.Inv

/-- In a Running state that meets the invariant a step is enabled and answers a next state: no fault of the model, no
refusal (40_fetch_decode.md §1, R80; 40_fetch_decode.md §2, R90). -/
def Obligations.RunningStateAlwaysSteps : Prop :=
  ∀ s : State, s.Inv → s.run = .running → ∃ t, step s = .next t

/-- Every state of every run, of every program with every `MEM_LEN`, meets the invariant (10_state.md §2 to §7). -/
def Obligations.ReachableStatesMeetInvariant : Prop :=
  ∀ (P : List Byte) (n k : Nat) (t : State),
    Host.Core.run Sys2Proof.core k (State.resetWith P n) = .next t → t.Inv

/-- No step is enabled in Halted or Faulted (10_state.md §2). That the model answers a named stop there is entry 4. -/
def Obligations.EndedRunTakesNoStep : Prop :=
  ∀ s : State,
    (s.run = .halted → step s = .fault .stepInHalted) ∧
    (s.run = .faulted → step s = .fault .stepInFaulted)

/-! ## Decoding -/

/-- A step runs the decoded instruction: it is `exec` of it at the same state, and the decoder's new pc is pc plus the
instruction's width (R86, R84). -/
def Obligations.StepRunsDecodedInstruction : Prop :=
  ∀ (s : State) (i : Instr) (npc : Nat), s.run = .running → decodeAt s.prog s.pc = .ok (i, npc) →
    step s = exec i s ∧ npc = s.pc + i.width

/-- The rows of the Instruction Table (R63): opcode byte, arity and width of each mnemonic. -/
def Obligations.InstructionTableRows : Prop :=
  (Mnemonic.loadConst.opcode = 9 ∧ Mnemonic.loadConst.arity = 3 ∧ Mnemonic.loadConst.width = 4) ∧
  (Mnemonic.readMem.opcode = 12 ∧ Mnemonic.readMem.arity = 4 ∧ Mnemonic.readMem.width = 5) ∧
  (Mnemonic.bitOr.opcode = 17 ∧ Mnemonic.bitOr.arity = 4 ∧ Mnemonic.bitOr.width = 5) ∧
  (Mnemonic.writeMem.opcode = 27 ∧ Mnemonic.writeMem.arity = 3 ∧ Mnemonic.writeMem.width = 4) ∧
  ∀ (op : Byte) (m : Mnemonic), Mnemonic.ofOpcode op = some m ↔ op = m.opcode

/-- The illegal opcodes (R67): exactly 252 byte values, and decoding one is UnknownOpcode wherever it stands, whatever
bytes follow it. -/
def Obligations.IllegalOpcodesAreUnknown : Prop :=
  (∀ (pre post : List Byte) (op : Byte),
    (op.toNat ≤ 8 ∨ op.toNat = 10 ∨ op.toNat = 11 ∨ (13 ≤ op.toNat ∧ op.toNat ≤ 16) ∨
      (18 ≤ op.toNat ∧ op.toNat ≤ 26) ∨ 28 ≤ op.toNat) →
    decodeAt (pre ++ op :: post) pre.length = .error (.unknownOpcode op pre.length)) ∧
  ((List.range 256).filter
    fun k => Mnemonic.ofOpcode (BitVec.ofNat 8 k) == none).length = 252

/-- Opcode dispatch comes first (R82): an illegal opcode faults as UnknownOpcode even when fewer than 4 bytes remain. -/
def Obligations.UnknownOpcodeFaults : Prop :=
  ∀ (s : State) (op : Byte), s.run = .running → s.prog[s.pc]? = some op →
    op ≠ 9 → op ≠ 12 → op ≠ 17 → op ≠ 27 →
    step s = .next { s with run := .faulted, fault := some (.unknownOpcode op s.pc) }

/-- Width validation (R83): the width is 4 for opcodes 9 and 27 and 5 for 12 and 17, and an instruction that ends beyond
the Program faults as TruncatedInstruction. -/
def Obligations.TruncatedInstructionFaults : Prop :=
  ∀ (s : State) (op : Byte), s.run = .running → s.prog[s.pc]? = some op →
    ((op = 9 ∨ op = 27) ∧ s.pc + 4 > s.prog.length ∨
      (op = 12 ∨ op = 17) ∧ s.pc + 5 > s.prog.length) →
    step s = .next { s with run := .faulted, fault := some (.truncatedInstruction op s.pc) }

/-- Operand extraction (R84): the operands are the bytes after the opcode, in order, A included, and the new pc is pc
plus the width. -/
def Obligations.OperandsFollowOpcode : Prop :=
  ∀ (P : List Byte) (pc : Nat) (a b c d : Byte),
    P[pc + 1]? = some a → P[pc + 2]? = some b → P[pc + 3]? = some c →
    (P[pc]? = some 9 → decodeAt P pc = .ok (.loadConst a b c, pc + 4)) ∧
    (P[pc]? = some 27 → decodeAt P pc = .ok (.writeMem a b c, pc + 4)) ∧
    (P[pc]? = some 12 → P[pc + 4]? = some d → decodeAt P pc = .ok (.readMem a b c d, pc + 5)) ∧
    (P[pc]? = some 17 → P[pc + 4]? = some d → decodeAt P pc = .ok (.bitOr a b c d, pc + 5))

/-- Decode and encode agree, for every instruction with every operand value, at every place of every program (R62, R74,
R76): no bit of an operand is dropped, A included. -/
def Obligations.DecodeEncodeAgree : Prop :=
  ∀ (pre post : List Byte) (i : Instr),
    decodeAt (pre ++ encode i ++ post) pre.length = .ok (i, pre.length + (encode i).length)

/-- Encode and decode agree: what is decoded at pc is the instruction whose encoding stands there, all of it inside the
Program (30_encoding.md §1, §2, R85, R92). -/
def Obligations.EncodeDecodeAgree : Prop :=
  ∀ (P : List Byte) (pc npc : Nat) (i : Instr), decodeAt P pc = .ok (i, npc) →
    (P.drop pc).take (encode i).length = encode i ∧ npc = pc + (encode i).length ∧ npc ≤ P.length

/-- The decoder reads no byte beyond the instruction at pc: two programs of one length that agree on the bytes of that
instruction decode alike there (R81). -/
def Obligations.DecoderReadsOnlyItsInstruction : Prop :=
  ∀ (P Q : List Byte) (pc : Nat) (op : Byte) (m : Mnemonic),
    P.length = Q.length → P[pc]? = some op → Mnemonic.ofOpcode op = some m →
    (∀ k, k < m.width → P[pc + k]? = Q[pc + k]?) → decodeAt P pc = decodeAt Q pc

/-- Match and mask (R69, R70): a table word of a mnemonic's width decodes to an instruction of that mnemonic exactly
when its masked bits are the match value. That a table word has byte 0 at the top is entry 7. -/
def Obligations.PatternSelectsInstruction : Prop :=
  ∀ (m : Mnemonic) (w : Nat), w < 2 ^ (8 * m.width) →
    ((∃ i, decodeTableWord (8 * m.width) w = some i ∧ i.mnemonic = m) ↔
      w &&& m.patternMask = m.patternMatch)

/-- Words written out from the spec's encodings decode to the instructions they stand for (the examples of R100, R104,
R120, R125, and the first word of 95_test_vectors.md W9). -/
def Obligations.TableWordsDecode : Prop :=
  decodeTableWord 32 0b00001001000000000000010100101010 = some (.loadConst 0 5 42) ∧
  decodeTableWord 32 0b00001001111111110000001100000111 = some (.loadConst 255 3 7) ∧
  decodeTableWord 40 0b0000110000000000000000010000000000000011 = some (.readMem 0 1 0 3) ∧
  decodeTableWord 40 0b0001000100000000000000010000001000000011 = some (.bitOr 0 1 2 3) ∧
  decodeTableWord 32 0b00011011000000000000000100000010 = some (.writeMem 0 1 2) ∧
  decodeTableWord 32 0b00000101000000000000000000000000 = none

/-- A table word placed where the next step fetches is the instruction the next step runs, in every state (entries 2
and 7). -/
def Obligations.FetchWordRunsTableWord : Prop :=
  ∀ (s : State) (nbits w : Nat) (i : Instr), decodeTableWord nbits w = some i →
    step (s.withFetchWord nbits w) = exec i (s.withFetchWord nbits w)

/-! ## The instructions -/

/-- LOAD_CONST (41_register_ops.md §1, 40_fetch_decode.md §2): its bytes, its result, everything it leaves unchanged, and
its decode fault. It completes in every state; outside Running, where the spec executes nothing, that and the run clause
are the model's choice (DESIGN CHOICE, entry 12). -/
def Obligations.LoadConstResult : Prop :=
  ∀ (a b c : Byte) (s : State),
    encode (.loadConst a b c) = [0x09, a, b, c] ∧
    (∃ t, exec (.loadConst a b c) s = .next t ∧
      t.readReg b = c ∧ (∀ r, r ≠ b → t.readReg r = s.readReg r) ∧
      (∀ k, t.readCell k = s.readCell k) ∧ t.pc = s.pc + 4 ∧
      t.run = (if s.pc + 4 = s.prog.length then RunState.halted else s.run) ∧
      t.fault = s.fault ∧ t.prog = s.prog ∧ t.memLen = s.memLen) ∧
    (s.run = .running → s.prog[s.pc]? = some 0x09 → s.prog.length < s.pc + 4 →
      step s = .next { s with run := .faulted, fault := some (.truncatedInstruction 0x09 s.pc) })

/-- OR (41_register_ops.md §2, 40_fetch_decode.md §2): its bytes, its result computed from the registers before the write,
everything it leaves unchanged, and its decode fault. The OR is the standard one (PRESUMED, entry 13). It completes in every
state; outside Running, where the spec executes nothing, that and the run clause are the model's choice (DESIGN CHOICE,
entry 12). -/
def Obligations.OrResult : Prop :=
  ∀ (a b c d : Byte) (s : State),
    encode (.bitOr a b c d) = [0x11, a, b, c, d] ∧
    (∃ t, exec (.bitOr a b c d) s = .next t ∧
      t.readReg d = s.readReg b ||| s.readReg c ∧ (∀ r, r ≠ d → t.readReg r = s.readReg r) ∧
      (∀ k, t.readCell k = s.readCell k) ∧ t.pc = s.pc + 5 ∧
      t.run = (if s.pc + 5 = s.prog.length then RunState.halted else s.run) ∧
      t.fault = s.fault ∧ t.prog = s.prog ∧ t.memLen = s.memLen) ∧
    (s.run = .running → s.prog[s.pc]? = some 0x11 → s.prog.length < s.pc + 5 →
      step s = .next { s with run := .faulted, fault := some (.truncatedInstruction 0x11 s.pc) })

/-- READ_MEM (42_memory_ops.md §1 and §3, 40_fetch_decode.md §2): its bytes, its address, its result and frame where the
address is in bounds, the OutOfBounds fault where it is not, and its decode fault. Outside Running, where the spec executes
nothing, the result with its run clause and the OutOfBounds clause are the model's choice (DESIGN CHOICE, entry 12). -/
def Obligations.ReadMemResult : Prop :=
  ∀ (a b c d : Byte) (s : State),
    encode (.readMem a b c d) = [0x0C, a, b, c, d] ∧
    readMemAddress s b c = (s.readReg b).toNat + c.toNat ∧
    (readMemAddress s b c < s.memLen →
      ∃ t, exec (.readMem a b c d) s = .next t ∧
        t.readReg d = s.readCell (readMemAddress s b c) ∧
        (∀ r, r ≠ d → t.readReg r = s.readReg r) ∧
        (∀ k, t.readCell k = s.readCell k) ∧ t.pc = s.pc + 5 ∧
        t.run = (if s.pc + 5 = s.prog.length then RunState.halted else s.run) ∧
        t.fault = s.fault ∧ t.prog = s.prog ∧ t.memLen = s.memLen) ∧
    (s.memLen ≤ readMemAddress s b c →
      exec (.readMem a b c d) s =
        .next { s with run := .faulted, fault := some (.outOfBounds (readMemAddress s b c) s.pc) }) ∧
    (s.run = .running → s.prog[s.pc]? = some 0x0C → s.prog.length < s.pc + 5 →
      step s = .next { s with run := .faulted, fault := some (.truncatedInstruction 0x0C s.pc) })

/-- WRITE_MEM (42_memory_ops.md §2 and §3, 40_fetch_decode.md §2): its bytes, its address, the cell it stores and its frame
where the address is in bounds, the OutOfBounds fault where it is not, and its decode fault. Outside Running, where the spec
executes nothing, the result with its run clause and the OutOfBounds clause are the model's choice (DESIGN CHOICE,
entry 12). -/
def Obligations.WriteMemResult : Prop :=
  ∀ (a b c : Byte) (s : State),
    encode (.writeMem a b c) = [0x1B, a, b, c] ∧
    writeMemAddress s b = (s.readReg b).toNat ∧
    (s.mem.wf = true → writeMemAddress s b < s.memLen →
      ∃ t, exec (.writeMem a b c) s = .next t ∧
        t.readCell (writeMemAddress s b) = s.readReg c ∧
        (∀ k, k ≠ writeMemAddress s b → t.readCell k = s.readCell k) ∧
        (∀ r, t.readReg r = s.readReg r) ∧ t.pc = s.pc + 4 ∧
        t.run = (if s.pc + 4 = s.prog.length then RunState.halted else s.run) ∧
        t.fault = s.fault ∧ t.prog = s.prog ∧ t.memLen = s.memLen) ∧
    (s.memLen ≤ writeMemAddress s b →
      exec (.writeMem a b c) s =
        .next { s with run := .faulted, fault := some (.outOfBounds (writeMemAddress s b) s.pc) }) ∧
    (s.run = .running → s.prog[s.pc]? = some 0x1B → s.prog.length < s.pc + 4 →
      step s = .next { s with run := .faulted, fault := some (.truncatedInstruction 0x1B s.pc) })

/-- The OR an instruction computes is the bit-by-bit one, with the properties a model must satisfy: commutative,
idempotent, identity 0, absorbing 0xFF, not below either source (41_register_ops.md §2; the definition is G1, PRESUMED,
entry 13). Outside Running it is entry 12. -/
def Obligations.OrIsBitwise : Prop :=
  ∀ (a b c d : Byte) (s t : State), exec (.bitOr a b c d) s = .next t →
    (∀ k, k < 8 →
      (t.readReg d).getLsbD k = ((s.readReg b).getLsbD k || (s.readReg c).getLsbD k)) ∧
    exec (.bitOr a c b d) s = .next t ∧
    (b = c → t.readReg d = s.readReg b) ∧
    (s.readReg c = 0 → t.readReg d = s.readReg b) ∧
    (s.readReg c = 0xFF → t.readReg d = 0xFF) ∧
    max (s.readReg b).toNat (s.readReg c).toNat ≤ (t.readReg d).toNat

/-- Operand A (R66): every value of A decodes, is kept, and gives the same execution, in all four instructions;
outside Running that is entry 12. -/
def Obligations.OperandAIgnored : Prop :=
  ∀ (a a' b c d : Byte) (s : State) (post : List Byte),
    exec (.loadConst a b c) s = exec (.loadConst a' b c) s ∧
    exec (.readMem a b c d) s = exec (.readMem a' b c d) s ∧
    exec (.bitOr a b c d) s = exec (.bitOr a' b c d) s ∧
    exec (.writeMem a b c) s = exec (.writeMem a' b c) s ∧
    decodeAt (9 :: a :: b :: c :: post) 0 = .ok (.loadConst a b c, 4) ∧
    decodeAt (12 :: a :: b :: c :: d :: post) 0 = .ok (.readMem a b c d, 5) ∧
    decodeAt (17 :: a :: b :: c :: d :: post) 0 = .ok (.bitOr a b c d, 5) ∧
    decodeAt (27 :: a :: b :: c :: post) 0 = .ok (.writeMem a b c, 4)

/-- The frame of all instructions: no register but the one the table of 10_state.md §4 lists as written, no cell but the
one WRITE_MEM stores to, and nothing of the program store or `MEM_LEN` changes; nor does the fault record, unless the run
is Faulted after it. Outside Running it is entry 12. -/
def Obligations.OnlyListedStateWritten : Prop :=
  ∀ (i : Instr) (s t : State), exec i s = .next t →
    (∀ r, destReg i ≠ some r → t.readReg r = s.readReg r) ∧
    (∀ a, storeAddress i s ≠ some a → t.readCell a = s.readCell a) ∧
    t.prog = s.prog ∧ t.memLen = s.memLen ∧ (t.run ≠ .faulted → t.fault = s.fault)

/-- What an instruction does depends on no register but those the table of 10_state.md §4 lists as read, and on no cell
but the one at its data address: it commutes with changing any other register or cell it does not write. Outside
Running it is entry 12. -/
def Obligations.OnlyListedStateRead : Prop :=
  ∀ (i : Instr) (s t : State) (v : Byte), exec i s = .next t →
    (∀ r, r ∉ sourceRegs i → destReg i ≠ some r →
      exec i (s.writeReg r v) = .next (t.writeReg r v)) ∧
    (∀ a, s.mem.wf = true → dataAddress i s ≠ some a →
      exec i (s.writeCell a v) = .next (t.writeCell a v))

/-! ## The step: faults, pc and the end of a run -/

/-- The effect of a fault (R141): run and the fault record change, nothing else; the record is one of the three kinds
with the cause and information of its kind; no further step occurs. -/
def Obligations.FaultChangesOnlyRunAndRecord : Prop :=
  ∀ s t : State, step s = .next t → t.run = .faulted →
    (∃ f, t = { s with run := .faulted, fault := some f } ∧ f.Explains t) ∧
    (∀ r, t.readReg r = s.readReg r) ∧ (∀ a, t.readCell a = s.readCell a) ∧ t.pc = s.pc ∧
    step t = .fault .stepInFaulted

/-- The checks come in one fixed order and the first that fails is reported (R143): opcode legal, instruction fits, data
address in bounds; where none fails the step is no fault. The cases are all there are and exclude each other. -/
def Obligations.FaultPriorityOrder : Prop :=
  ∀ (s : State) (op : Byte), s.run = .running → s.prog[s.pc]? = some op →
    (Mnemonic.ofOpcode op = none →
      step s = .next { s with run := .faulted, fault := some (.unknownOpcode op s.pc) }) ∧
    (∀ m, Mnemonic.ofOpcode op = some m →
      (s.prog.length < s.pc + m.width →
        step s = .next { s with run := .faulted, fault := some (.truncatedInstruction op s.pc) }) ∧
      (s.pc + m.width ≤ s.prog.length →
        ∃ i, decodeAt s.prog s.pc = .ok (i, s.pc + m.width) ∧ i.mnemonic = m ∧
          (∀ a, dataAddress i s = some a → s.memLen ≤ a →
            step s = .next { s with run := .faulted, fault := some (.outOfBounds a s.pc) }) ∧
          ((∀ a, dataAddress i s = some a → a < s.memLen) →
            ∃ t, step s = .next t ∧ t.run ≠ .faulted ∧ t.fault = s.fault)))

/-- The pc sequencer (R87): on success pc becomes the decoder's new pc, the old pc plus 4 or 5; on a fault it does not
change. -/
def Obligations.PcAdvancesByWidth : Prop :=
  ∀ s t : State, step s = .next t →
    (t.run ≠ .faulted → ∃ i, decodeAt s.prog s.pc = .ok (i, t.pc) ∧ t.pc = s.pc + i.width ∧
      (i.width = 4 ∨ i.width = 5)) ∧
    (t.run = .faulted → t.pc = s.pc)

/-- Halt (R89): after a successful step the run is Halted if the new pc is `PROG_LEN`, and stays Running otherwise. -/
def Obligations.HaltExactlyAtProgramEnd : Prop :=
  ∀ s t : State, step s = .next t → t.run ≠ .faulted →
    t.run = (if t.pc = s.prog.length then RunState.halted else .running)

/-- The bounds check (20_memory.md §3): every data access is checked at its full width before it is made; if the check fails the
instruction raises OutOfBounds with that address and does nothing else, and if it succeeds the instruction does not
fault. READ_MEM's address is the unwrapped sum, WRITE_MEM's the register. Outside Running it is the model's choice (DESIGN
CHOICE, entry 12). -/
def Obligations.BoundsCheckEveryAccess : Prop :=
  ∀ (i : Instr) (s : State) (addr : Nat), dataAddress i s = some addr →
    ((∃ a b c d, i = .readMem a b c d ∧ addr = (s.readReg b).toNat + c.toNat) ∨
      (∃ a b c, i = .writeMem a b c ∧ addr = (s.readReg b).toNat)) ∧
    (¬ addr < s.memLen →
      exec i s = .next { s with run := .faulted, fault := some (.outOfBounds addr s.pc) }) ∧
    (addr < s.memLen → ∃ t, exec i s = .next t ∧ t.fault = s.fault ∧ t.pc = s.pc + i.width)

/-- With the default `MEM_LEN` of 256, WRITE_MEM cannot fault and READ_MEM faults exactly when its address is 256 or more
(20_memory.md §3, 42_memory_ops.md §2). -/
def Obligations.DefaultMemLenFaults : Prop :=
  ∀ (a b c d : Byte) (s t : State), s.memLen = 256 → s.run = .running →
    (exec (.writeMem a b c) s = .next t → t.run ≠ .faulted) ∧
    (exec (.readMem a b c d) s = .next t →
      (t.run = .faulted ↔ 256 ≤ (s.readReg b).toNat + c.toNat))

/-- For every `MEM_LEN`, the cells at addresses from 256 up are never written and stay 0 for the whole run (20_memory.md
§3, 42_memory_ops.md §2). -/
def Obligations.HighCellsStayZero : Prop :=
  ∀ (P : List Byte) (n k : Nat) (t : State),
    Host.Core.run Sys2Proof.core k (State.resetWith P n) = .next t →
    ∀ a, 256 ≤ a → t.readCell a = 0

/-! ## Whole runs -/

/-- Termination (70_reset_and_hazards.md §2): from every state that meets the invariant the run ends, after at most one
quarter of the remaining bytes in successful steps and at most one faulting step, and never more steps than bytes
remain; and the final state that the sequencer reaches from reset is an ended one. -/
def Obligations.EveryRunEnds : Prop :=
  (∀ s : State, s.Inv →
    ∃ (k : Nat) (t : State), Host.Core.run Sys2Proof.core k s = .next t ∧ t.run ≠ .running ∧
      (t.run = .halted → k ≤ (s.prog.length - s.pc) / 4) ∧
      k ≤ (s.prog.length - s.pc) / 4 + 1 ∧ k ≤ s.prog.length - s.pc) ∧
  ∀ (P : List Byte) (n : Nat), (runProgram P n).run ≠ .running ∧
    ∃ k, k ≤ P.length ∧
      Host.Core.run Sys2Proof.core k (State.resetWith P n) = .next (runProgram P n)

/-- The program store and `MEM_LEN` are the same in every state of a run: no instruction can change what is fetched
(10_state.md §6, 20_memory.md §5). -/
def Obligations.ProgramStoreNeverChanges : Prop :=
  ∀ (P : List Byte) (n k : Nat) (t : State),
    Host.Core.run Sys2Proof.core k (State.resetWith P n) = .next t → t.prog = P ∧ t.memLen = n

/-- The instructions a run executes are those on the chain of instruction boundaries: after k steps without a fault pc is
the k-th boundary, a fault at step k leaves pc at boundary k - 1, and the run is Halted exactly when pc is `PROG_LEN`
(40_fetch_decode.md §3). -/
def Obligations.RunFollowsBoundaries : Prop :=
  ∀ (P : List Byte) (n k : Nat) (t : State),
    Host.Core.run Sys2Proof.core k (State.resetWith P n) = .next t →
    (t.run ≠ .faulted → boundary P k = some t.pc) ∧
    (t.run = .faulted → ∃ j, k = j + 1 ∧ boundary P j = some t.pc) ∧
    (t.run = .halted ↔ t.pc = P.length)

/-- Memory order is program order: after any number of steps a cell holds the value of the latest WRITE_MEM to it among
those steps, or what it held before them if there was none; from reset that is 0 (20_memory.md §5, 42_memory_ops.md
§1). -/
def Obligations.MemoryHoldsLatestStore : Prop :=
  (∀ (s t : State) (k a : Nat), s.mem.wf = true →
    Host.Core.run Sys2Proof.core k s = .next t →
    t.readCell a = ((storeLog k s).lookup a).getD (s.readCell a)) ∧
  ∀ (P : List Byte) (n k a : Nat) (t : State),
    Host.Core.run Sys2Proof.core k (State.resetWith P n) = .next t →
    t.readCell a = ((storeLog k (State.resetWith P n)).lookup a).getD 0

/-- Implicit zero (R24): a register that no instruction has written since reset reads 0. A register that was written reads
the latest value written to it. -/
def Obligations.RegistersHoldLatestWrite : Prop :=
  ∀ (P : List Byte) (n k : Nat) (t : State) (r : Byte),
    Host.Core.run Sys2Proof.core k (State.resetWith P n) = .next t →
    ((∀ v, (r, v) ∉ regWriteLog k (State.resetWith P n)) → t.readReg r = 0) ∧
    t.readReg r = ((regWriteLog k (State.resetWith P n)).lookup r).getD 0

/-- No hazard: a READ_MEM right after a WRITE_MEM to the same cell completes and returns the stored value
(70_reset_and_hazards.md §3). Outside Running it is entry 12. -/
def Obligations.StoreThenLoadReturnsValue : Prop :=
  ∀ (a b c a' b' c' d : Byte) (s t : State), s.mem.wf = true →
    writeMemAddress s b < s.memLen → exec (.writeMem a b c) s = .next t →
    readMemAddress t b' c' = writeMemAddress s b →
    ∃ u, exec (.readMem a' b' c' d) t = .next u ∧ u.readReg d = s.readReg c

/-! ## The ports -/

/-- The snapshot port in Halted (R50): exactly the ranges `0 ≤ start ≤ end < MEM_LEN` are answered, with the cells from
start to end, both included; every other range is a RangeError. -/
def Obligations.SnapshotAnswersRange : Prop :=
  ∀ (s : State) (start stop : Nat), s.run = .halted →
    (start ≤ stop ∧ stop < s.memLen →
      ∃ cells, s.snapshot start stop = .ok cells ∧ cells.length = stop - start + 1 ∧
        ∀ k, k ≤ stop - start → cells[k]? = some (s.readCell (start + k))) ∧
    (¬ (start ≤ stop ∧ stop < s.memLen) → s.snapshot start stop = .rangeError)

/-- Outside Halted the snapshot port answers NoSnapshot, whatever the range (20_memory.md §5). -/
def Obligations.SnapshotOnlyInHalted : Prop :=
  ∀ (s : State) (start stop : Nat),
    s.snapshot start stop = .noSnapshot ↔ s.run ≠ .halted

/-- The trace port reports every step: its pc, the mnemonic and all operands of the instruction where one was decoded,
and success or the fault (60_exceptions.md §4; that a decode fault shows no instruction is entry 9). -/
def Obligations.TraceReportsEveryStep : Prop :=
  ∀ s t : State, step s = .next t →
    ∃ r, s.trace = some r ∧ r.pc = s.pc ∧
      (∀ i npc, decodeAt s.prog s.pc = .ok (i, npc) →
        r.instr = some ⟨i.mnemonic, i.operands.map BitVec.toNat⟩) ∧
      (∀ e, decodeAt s.prog s.pc = .error e → r.instr = none) ∧
      (t.run ≠ .faulted → r.outcome = .success) ∧
      (t.run = .faulted → ∃ f, t.fault = some f ∧ r.outcome = .fault f)

/-- The status output after any number of steps from reset shows code 0 exactly while the run is not Faulted, and
otherwise the code 1, 2 or 3 of the recorded fault (60_exceptions.md §1; the numbers are D7). -/
def Obligations.StatusShowsFault : Prop :=
  ∀ (P : List Byte) (n k : Nat) (t : State),
    Host.Core.run Sys2Proof.core k (State.resetWith P n) = .next t →
    t.status.run = t.run ∧ t.status.fault = t.fault ∧
    (t.status.code = 0 ↔ t.run ≠ .faulted) ∧
    (t.status.code = 1 ↔ ∃ op, t.fault = some (.unknownOpcode op t.pc)) ∧
    (t.status.code = 2 ↔ ∃ op, t.fault = some (.truncatedInstruction op t.pc)) ∧
    (t.status.code = 3 ↔ ∃ a, t.fault = some (.outOfBounds a t.pc))

/-! ## The assembler -/

/-- The assembler's errors on one line, and that the first one aborts the assembly (30_encoding.md §4; the order of the
checks and the treatment of a token that is no decimal number are entry 10). -/
def Obligations.AssemblerErrors : Prop :=
  (∀ (line : Nat) (mn : List Char) (ops : List (List Char)),
    (parseMnemonic mn = none → assembleTokens line mn ops = .error (.unknownMnemonic line)) ∧
    (∀ m, parseMnemonic mn = some m →
      (ops.length ≠ m.arity → assembleTokens line mn ops = .error (.wrongOperandCount line)) ∧
      (ops.length = m.arity →
        ((∃ tok ∈ ops, ∀ v, parseDecimal tok = some v → 255 < v) →
          assembleTokens line mn ops = .error (.operandOutOfRange line)) ∧
        ((∀ tok ∈ ops, ∃ v, parseDecimal tok = some v ∧ v ≤ 255) →
          ∃ i, assembleTokens line mn ops = .ok i ∧ i.mnemonic = m ∧
            i.operands.map (fun o => some o.toNat) = ops.map parseDecimal)))) ∧
  ∀ (n : Nat) (pre post : List (List Char)) (line mn : List Char) (ops : List (List Char))
    (is : List Instr) (e : AsmError),
    assembleLines n pre = .ok is → lineTokens line = mn :: ops →
    assembleTokens (n + pre.length) mn ops = .error e →
    assembleLines n (pre ++ line :: post) = .error e

/-- The assembler accepts every instruction written with its mnemonic, in upper or lower case, and its operands in
decimal, A to D (30_encoding.md §4). -/
def Obligations.AssemblerAcceptsEveryInstruction : Prop :=
  ∀ (i : Instr) (line : Nat),
    assembleTokens line (mnemonicSpelling i.mnemonic) (i.operands.map decimalToken) = .ok i ∧
    assembleTokens line ((mnemonicSpelling i.mnemonic).map Char.toLower)
      (i.operands.map decimalToken) = .ok i

/-- The assembled binary is the concatenation of the instructions' encodings in source order, and decoding it from its
start gives those instructions back, one after the other (30_encoding.md §4). -/
def Obligations.AssembledProgramDecodesBack : Prop :=
  ∀ (text : List Char) (bytes : List Byte), assemble text = .ok bytes →
    ∃ is, parseProgram text = .ok is ∧ bytes = is.flatMap encode ∧
      ∀ k i, is[k]? = some i →
        decodeAt bytes ((is.take k).flatMap encode).length =
          .ok (i, ((is.take (k + 1)).flatMap encode).length)
end

