-- ==== Sys2Proof/Laws/Decode.lean ====
section
/-! SUPPORT. What the Instruction Table and the decoder can answer, said once. -/

namespace Sys2Proof

@[simp] theorem Mnemonic.width_loadConst : Mnemonic.loadConst.width = 4 := rfl
@[simp] theorem Mnemonic.width_readMem : Mnemonic.readMem.width = 5 := rfl
@[simp] theorem Mnemonic.width_bitOr : Mnemonic.bitOr.width = 5 := rfl
@[simp] theorem Mnemonic.width_writeMem : Mnemonic.writeMem.width = 4 := rfl

theorem Mnemonic.width_cases (m : Mnemonic) : m.width = 4 ∨ m.width = 5 := by
  cases m <;> simp

@[simp] theorem Mnemonic.ofOpcode_opcode (m : Mnemonic) : Mnemonic.ofOpcode m.opcode = some m := by
  cases m <;> rfl

/-- Each opcode byte names one mnemonic (R63). -/
theorem Mnemonic.opcode_of_ofOpcode {op : Byte} {m : Mnemonic} (h : Mnemonic.ofOpcode op = some m) :
    op = m.opcode := by
  unfold Mnemonic.ofOpcode at h
  split_ifs at h with h1 h2 h3 h4
  all_goals
    cases h
    assumption

/-- The illegal opcode bytes are all but the four of the table (R67). -/
theorem Mnemonic.ofOpcode_eq_none {op : Byte} :
    Mnemonic.ofOpcode op = none ↔ op ≠ 9 ∧ op ≠ 12 ∧ op ≠ 17 ∧ op ≠ 27 := by
  unfold Mnemonic.ofOpcode
  split_ifs with h1 h2 h3 h4 <;> simp_all

@[simp] theorem instrAt_mnemonic (m : Mnemonic) (P : List Byte) (pc : Nat) :
    (instrAt m P pc).mnemonic = m := by
  cases m <;> rfl

/-- A decoded instruction: its opcode byte stands at pc, it fits in the Program, and its operands follow. -/
theorem decodeAt_ok {P : List Byte} {pc npc : Nat} {i : Instr} (h : decodeAt P pc = .ok (i, npc)) :
    P[pc]? = some i.mnemonic.opcode ∧ i = instrAt i.mnemonic P pc ∧ npc = pc + i.width ∧
      pc + i.width ≤ P.length := by
  unfold decodeAt at h
  split at h
  · cases h
  · rename_i op hop
    split at h
    · cases h
    · rename_i m hm
      split at h
      · cases h
      · rename_i hlen
        cases h
        refine ⟨?_, ?_, ?_, ?_⟩
        · rw [instrAt_mnemonic, hop, Mnemonic.opcode_of_ofOpcode hm]
        · rw [instrAt_mnemonic]
        · rw [Instr.width, instrAt_mnemonic]
        · rw [Instr.width, instrAt_mnemonic]
          omega

/-- What the decoder answers at a legal opcode whose instruction fits. -/
theorem decodeAt_of_fits {P : List Byte} {pc : Nat} {m : Mnemonic} (hop : P[pc]? = some m.opcode)
    (hlen : pc + m.width ≤ P.length) : decodeAt P pc = .ok (instrAt m P pc, pc + m.width) := by
  simp [decodeAt, hop, Nat.not_lt.2 hlen]

/-- A decode error: no opcode byte, or an illegal one, or an instruction that does not fit. -/
theorem decodeAt_error {P : List Byte} {pc : Nat} {e : DecodeError} (h : decodeAt P pc = .error e) :
    (e = .noOpcodeByte pc ∧ P[pc]? = none) ∨
      (∃ op, e = .unknownOpcode op pc ∧ P[pc]? = some op ∧ Mnemonic.ofOpcode op = none) ∨
      ∃ op m, e = .truncatedInstruction op pc ∧ P[pc]? = some op ∧ Mnemonic.ofOpcode op = some m ∧
        P.length < pc + m.width := by
  unfold decodeAt at h
  split at h
  · rename_i hop
    cases h
    exact .inl ⟨rfl, hop⟩
  · rename_i op hop
    split at h
    · rename_i hm
      cases h
      exact .inr (.inl ⟨op, rfl, hop, hm⟩)
    · rename_i m hm
      split at h
      · rename_i hlen
        cases h
        exact .inr (.inr ⟨op, m, rfl, hop, hm, hlen⟩)
      · cases h

theorem encode_length (i : Instr) : (encode i).length = i.width := by
  cases i <;> rfl

theorem operands_length (i : Instr) : i.operands.length = i.mnemonic.arity := by
  cases i <;> rfl

/-- Every instruction is well formed: every operand byte value is legal (R62). -/
theorem Instr.wellFormed_true (i : Instr) : i.wellFormed = true := by
  have hr : ∀ l : List Byte, (l.map BitVec.toNat).all (fun n => decide (n < 256)) = true := by
    intro l
    simp only [List.all_map, List.all_eq_true, Function.comp, decide_eq_true_eq]
    exact fun b _ => b.isLt
  simp [Instr.wellFormed, Instr.toRaw, RawInstr.wellFormed, RawInstr.countOk, RawInstr.rangeOk,
    operands_length, -List.all_map] at hr ⊢
  exact fun b _ => b.isLt

end Sys2Proof
end

