-- ==== Sys2Proof/Laws/Memory.lean ====
section
/-! SUPPORT. The laws of data memory: read after write, and the canonical form that every write keeps. -/

namespace Sys2Proof.Machine

@[simp] theorem Memory.read_nil (a : Nat) : Memory.read a [] = 0 := rfl

theorem Memory.wfFrom_cons (lo a : Nat) (v : Byte) (m : Memory) :
    Memory.wfFrom lo ((a, v) :: m) = true ↔ lo ≤ a ∧ v ≠ 0 ∧ Memory.wfFrom (a + 1) m = true := by
  simp [Memory.wfFrom, and_assoc]

theorem Memory.wfFrom_mono {lo lo' : Nat} {m : Memory} (h : Memory.wfFrom lo m = true)
    (hl : lo' ≤ lo) : Memory.wfFrom lo' m = true := by
  cases m with
  | nil => rfl
  | cons e m =>
    obtain ⟨a, v⟩ := e
    rw [Memory.wfFrom_cons] at h ⊢
    exact ⟨by omega, h.2⟩

/-- Below the first listed address every cell reads 0. -/
theorem Memory.read_below {lo a : Nat} {m : Memory} (h : Memory.wfFrom lo m = true) (ha : a < lo) :
    Memory.read a m = 0 := by
  induction m generalizing lo with
  | nil => rfl
  | cons e m ih =>
    obtain ⟨b, w⟩ := e
    rw [Memory.wfFrom_cons] at h
    have hne : a ≠ b := by omega
    simp only [Memory.read, hne, if_false]
    exact ih h.2.2 (by omega)

/-- A write leaves every other cell as it was (R126). -/
theorem Memory.read_write_other {a b : Nat} (v : Byte) (m : Memory) (h : b ≠ a) :
    Memory.read b (Memory.write a v m) = Memory.read b m := by
  induction m with
  | nil =>
    unfold Memory.write
    split_ifs
    · rfl
    · simp [Memory.read, h]
  | cons e m ih =>
    obtain ⟨k, w⟩ := e
    unfold Memory.write
    split_ifs with h1 h2 h3 h4
    · rfl
    · simp [Memory.read, h]
    · subst h3
      simp [Memory.read, h]
    · subst h3
      simp [Memory.read, h]
    · simp only [Memory.read, ih]

/-- A cell reads the value last written to it (R122, R126). -/
theorem Memory.read_write_same_from {lo : Nat} (a : Nat) (v : Byte) {m : Memory}
    (h : Memory.wfFrom lo m = true) : Memory.read a (Memory.write a v m) = v := by
  induction m generalizing lo with
  | nil =>
    unfold Memory.write
    split_ifs with hv
    · exact hv.symm
    · simp [Memory.read]
  | cons e m ih =>
    obtain ⟨k, w⟩ := e
    rw [Memory.wfFrom_cons] at h
    unfold Memory.write
    split_ifs with h1 h2 h3 h4
    · rw [h2]
      exact Memory.read_below (lo := k) (by rw [Memory.wfFrom_cons]; exact ⟨le_refl _, h.2⟩) h1
    · simp [Memory.read]
    · rw [h4]
      exact Memory.read_below h.2.2 (by omega)
    · simp [Memory.read]
    · simp only [Memory.read, h3, if_false]
      exact ih h.2.2

theorem Memory.read_write_same (a : Nat) (v : Byte) {m : Memory} (h : m.wf = true) :
    Memory.read a (Memory.write a v m) = v :=
  Memory.read_write_same_from a v h

theorem Memory.wfFrom_write {lo a : Nat} (v : Byte) {m : Memory} (h : Memory.wfFrom lo m = true)
    (ha : lo ≤ a) : Memory.wfFrom lo (Memory.write a v m) = true := by
  induction m generalizing lo with
  | nil =>
    unfold Memory.write
    split_ifs with hv
    · rfl
    · exact (Memory.wfFrom_cons ..).2 ⟨ha, hv, rfl⟩
  | cons e m ih =>
    obtain ⟨k, w⟩ := e
    have hc := (Memory.wfFrom_cons lo k w m).1 h
    unfold Memory.write
    split_ifs with h1 h2 h3 h4
    · exact h
    · rw [Memory.wfFrom_cons, Memory.wfFrom_cons]
      exact ⟨ha, h2, by omega, hc.2⟩
    · exact Memory.wfFrom_mono hc.2.2 (by omega)
    · rw [Memory.wfFrom_cons]
      exact ⟨ha, h4, h3 ▸ hc.2.2⟩
    · rw [Memory.wfFrom_cons]
      exact ⟨hc.1, hc.2.1, ih hc.2.2 (by omega)⟩

/-- Every write keeps the canonical form. -/
theorem Memory.wf_write (a : Nat) (v : Byte) {m : Memory} (h : m.wf = true) :
    (m.write a v).wf = true :=
  Memory.wfFrom_write v h (Nat.zero_le a)

theorem Memory.wf_nil : Memory.wf [] = true := rfl

/-- A write adds no entry but one at its own address. -/
theorem Memory.mem_write {a b : Nat} {v w : Byte} {m : Memory} (h : (b, w) ∈ Memory.write a v m) :
    (b, w) ∈ m ∨ b = a := by
  induction m with
  | nil =>
    unfold Memory.write at h
    split_ifs at h
    · exact .inl h
    · exact .inr (congrArg Prod.fst (List.mem_singleton.1 h))
  | cons e m ih =>
    obtain ⟨k, u⟩ := e
    unfold Memory.write at h
    split_ifs at h with h1 h2 h3 h4
    · exact .inl h
    · rcases List.mem_cons.1 h with h | h
      · exact .inr (congrArg Prod.fst h)
      · exact .inl h
    · exact .inl (List.mem_cons_of_mem _ h)
    · rcases List.mem_cons.1 h with h | h
      · exact .inr (congrArg Prod.fst h)
      · exact .inl (List.mem_cons_of_mem _ h)
    · rcases List.mem_cons.1 h with h | h
      · exact .inl (h ▸ List.mem_cons_self)
      · exact (ih h).imp (List.mem_cons_of_mem _) id

/-- A cell that no entry lists reads 0. -/
theorem Memory.read_eq_zero {a : Nat} {m : Memory} (h : ∀ v, (a, v) ∉ m) : Memory.read a m = 0 := by
  induction m with
  | nil => rfl
  | cons e m ih =>
    obtain ⟨k, w⟩ := e
    have hne : a ≠ k := fun hk => h w (hk ▸ List.mem_cons_self)
    simp only [Memory.read, hne, if_false]
    exact ih fun v hv => h v (List.mem_cons_of_mem _ hv)

/-- Two memories in canonical form that read the same everywhere are the same list. -/
theorem Memory.ext_from {lo : Nat} {m n : Memory} (hm : Memory.wfFrom lo m = true)
    (hn : Memory.wfFrom lo n = true) (h : ∀ a, Memory.read a m = Memory.read a n) : m = n := by
  induction m generalizing lo n with
  | nil =>
    cases n with
    | nil => rfl
    | cons e n =>
      obtain ⟨b, w⟩ := e
      have := h b
      simp [Memory.read] at this
      exact absurd this.symm ((Memory.wfFrom_cons ..).1 hn).2.1
  | cons e m ih =>
    obtain ⟨a, v⟩ := e
    have hmc := (Memory.wfFrom_cons ..).1 hm
    cases n with
    | nil =>
      have := h a
      simp [Memory.read] at this
      exact absurd this hmc.2.1
    | cons e' n =>
      obtain ⟨b, w⟩ := e'
      have hnc := (Memory.wfFrom_cons ..).1 hn
      have hab : a = b := by
        rcases Nat.lt_trichotomy a b with hlt | heq | hgt
        · have h1 := h a
          rw [Memory.read_below (lo := b) (m := (b, w) :: n)
            ((Memory.wfFrom_cons ..).2 ⟨le_refl _, hnc.2⟩) hlt] at h1
          simp [Memory.read] at h1
          exact absurd h1 hmc.2.1
        · exact heq
        · have h1 := h b
          rw [Memory.read_below (lo := a) (m := (a, v) :: m)
            ((Memory.wfFrom_cons ..).2 ⟨le_refl _, hmc.2⟩) hgt] at h1
          simp [Memory.read] at h1
          exact absurd h1.symm hnc.2.1
      subst hab
      have hv : v = w := by simpa [Memory.read] using h a
      subst hv
      congr 1
      refine ih hmc.2.2 hnc.2.2 fun k => ?_
      by_cases hk : k = a
      · subst hk
        rw [Memory.read_below hmc.2.2 (Nat.lt_succ_self k),
          Memory.read_below hnc.2.2 (Nat.lt_succ_self k)]
      · simpa [Memory.read, hk] using h k

theorem Memory.ext {m n : Memory} (hm : m.wf = true) (hn : n.wf = true)
    (h : ∀ a, Memory.read a m = Memory.read a n) : m = n :=
  Memory.ext_from hm hn h

end Sys2Proof.Machine
end

