-- ==== Sys2Proof/Laws/State.lean ====
section
/-! SUPPORT. One lemma for each field of State under each update of Machine/Ops.lean, so that no proof unfolds a record
update. -/

namespace Sys2Proof.Machine

variable (s : State) (i v : Byte) (a n w : Nat) (f : FaultRecord) (P : List Byte)

/-! Writing a register changes `x` alone (R101). -/

@[simp] theorem State.writeReg_run : (s.writeReg i v).run = s.run := rfl
@[simp] theorem State.writeReg_pc : (s.writeReg i v).pc = s.pc := rfl
@[simp] theorem State.writeReg_mem : (s.writeReg i v).mem = s.mem := rfl
@[simp] theorem State.writeReg_fault : (s.writeReg i v).fault = s.fault := rfl
@[simp] theorem State.writeReg_prog : (s.writeReg i v).prog = s.prog := rfl
@[simp] theorem State.writeReg_memLen : (s.writeReg i v).memLen = s.memLen := rfl
@[simp] theorem State.writeReg_readCell : (s.writeReg i v).readCell a = s.readCell a := rfl

/-! Writing a cell changes `mem` alone (R126). -/

@[simp] theorem State.writeCell_run : (s.writeCell a v).run = s.run := rfl
@[simp] theorem State.writeCell_pc : (s.writeCell a v).pc = s.pc := rfl
@[simp] theorem State.writeCell_x : (s.writeCell a v).x = s.x := rfl
@[simp] theorem State.writeCell_mem : (s.writeCell a v).mem = s.mem.write a v := rfl
@[simp] theorem State.writeCell_fault : (s.writeCell a v).fault = s.fault := rfl
@[simp] theorem State.writeCell_prog : (s.writeCell a v).prog = s.prog := rfl
@[simp] theorem State.writeCell_memLen : (s.writeCell a v).memLen = s.memLen := rfl
@[simp] theorem State.writeCell_readReg : (s.writeCell a v).readReg i = s.readReg i := rfl

/-! Raising a fault changes `run` and `fault` alone (R141). -/

@[simp] theorem State.raise_run : (s.raise f).run = .faulted := rfl
@[simp] theorem State.raise_pc : (s.raise f).pc = s.pc := rfl
@[simp] theorem State.raise_x : (s.raise f).x = s.x := rfl
@[simp] theorem State.raise_mem : (s.raise f).mem = s.mem := rfl
@[simp] theorem State.raise_fault : (s.raise f).fault = some f := rfl
@[simp] theorem State.raise_prog : (s.raise f).prog = s.prog := rfl
@[simp] theorem State.raise_memLen : (s.raise f).memLen = s.memLen := rfl
@[simp] theorem State.raise_readReg : (s.raise f).readReg i = s.readReg i := rfl
@[simp] theorem State.raise_readCell : (s.raise f).readCell a = s.readCell a := rfl

/-! Completing an instruction changes `pc` and `run` alone (R87, R89). -/

@[simp] theorem State.complete_run :
    (s.complete n).run = runAfter s.run (s.pc + n) s.prog.length := rfl
@[simp] theorem State.complete_pc : (s.complete n).pc = s.pc + n := rfl
@[simp] theorem State.complete_x : (s.complete n).x = s.x := rfl
@[simp] theorem State.complete_mem : (s.complete n).mem = s.mem := rfl
@[simp] theorem State.complete_fault : (s.complete n).fault = s.fault := rfl
@[simp] theorem State.complete_prog : (s.complete n).prog = s.prog := rfl
@[simp] theorem State.complete_memLen : (s.complete n).memLen = s.memLen := rfl
@[simp] theorem State.complete_readReg : (s.complete n).readReg i = s.readReg i := rfl
@[simp] theorem State.complete_readCell : (s.complete n).readCell a = s.readCell a := rfl

/-! The reset state of a run (R36). -/

@[simp] theorem State.resetWith_pc : (State.resetWith P n).pc = 0 := rfl
@[simp] theorem State.resetWith_mem : (State.resetWith P n).mem = [] := rfl
@[simp] theorem State.resetWith_fault : (State.resetWith P n).fault = none := rfl
@[simp] theorem State.resetWith_prog : (State.resetWith P n).prog = P := rfl
@[simp] theorem State.resetWith_memLen : (State.resetWith P n).memLen = n := rfl

/-! Placing a table word changes the program store, `run` and `fault`. -/

@[simp] theorem State.withFetchWord_run : (s.withFetchWord n w).run = .running := rfl
@[simp] theorem State.withFetchWord_pc : (s.withFetchWord n w).pc = s.pc := rfl
@[simp] theorem State.withFetchWord_x : (s.withFetchWord n w).x = s.x := rfl
@[simp] theorem State.withFetchWord_mem : (s.withFetchWord n w).mem = s.mem := rfl
@[simp] theorem State.withFetchWord_fault : (s.withFetchWord n w).fault = none := rfl
@[simp] theorem State.withFetchWord_prog :
    (s.withFetchWord n w).prog = spliceAt s.prog s.pc (tableBytes n w) := rfl
@[simp] theorem State.withFetchWord_memLen : (s.withFetchWord n w).memLen = s.memLen := rfl

/-! The outcome's next state. -/

@[simp] theorem nextState_next : nextState (.next s) = some s := rfl
@[simp] theorem nextState_fault (r : Fault) : nextState (.fault r) = none := rfl
@[simp] theorem nextState_refused (r : Refusal) : nextState (.refused r) = none := rfl

end Sys2Proof.Machine
end

