-- ==== Sys2Proof/Laws/Ops.lean ====
section
/-! SUPPORT. One lemma for each shared operation, `exec` and `step`, that says everything it can answer. -/

namespace Sys2Proof.Machine

/-! ## Registers -/

theorem RegFile.get_set (x : RegFile) (i j v : Byte) :
    (x.set i v).get j = if j = i then v else x.get j := by
  unfold RegFile.get RegFile.set
  rw [List.getElem_set]
  by_cases h : j = i
  · simp [h]
  · have : i.toNat ≠ j.toNat := fun hc => h (BitVec.eq_of_toNat_eq hc.symm)
    simp [h, this]

/-- Two register files that read the same at every index are the same. -/
theorem RegFile.ext {x y : RegFile} (h : ∀ i, x.get i = y.get i) : x = y := by
  cases x with
  | mk xs hx =>
    cases y with
    | mk ys hy =>
      congr 1
      refine List.ext_getElem (hx.trans hy.symm) fun k h1 h2 => ?_
      have hm : (BitVec.ofNat 8 k).toNat = k := by
        rw [BitVec.toNat_ofNat]
        exact Nat.mod_eq_of_lt (h1.trans_eq hx)
      simpa only [RegFile.get, hm] using h (BitVec.ofNat 8 k)

@[simp] theorem RegFile.get_zero (i : Byte) : RegFile.zero.get i = 0 :=
  List.getElem_replicate ..

theorem State.readReg_writeReg (s : State) (i j v : Byte) :
    (s.writeReg i v).readReg j = if j = i then v else s.readReg j :=
  RegFile.get_set s.x i j v

@[simp] theorem State.readReg_writeReg_same (s : State) (i v : Byte) :
    (s.writeReg i v).readReg i = v := by
  simp [State.readReg_writeReg]

theorem State.readReg_writeReg_other (s : State) {i j : Byte} (v : Byte) (h : j ≠ i) :
    (s.writeReg i v).readReg j = s.readReg j := by
  simp [State.readReg_writeReg, h]

@[simp] theorem State.resetWith_readReg (P : List Byte) (n : Nat) (i : Byte) :
    (State.resetWith P n).readReg i = 0 :=
  RegFile.get_zero i

/-! ## Completing and faulting -/

theorem runAfter_eq_faulted {run : RunState} {npc len : Nat} (h : runAfter run npc len = .faulted) :
    run = .faulted := by
  unfold runAfter at h
  split_ifs at h
  exact h

theorem State.access_of_lt {s : State} {a : Nat} (h : a < s.memLen) (done : State) :
    s.access a done = done := by
  simp [State.access, h]

theorem State.access_of_le {s : State} {a : Nat} (h : s.memLen ≤ a) (done : State) :
    s.access a done = s.raise (.outOfBounds a s.pc) := by
  simp [State.access, Nat.not_lt.2 h]

/-! ## Instructions -/

/-- What an instruction that does not fault does to the state, pc aside. -/
def effect (i : Instr) (s : State) : State :=
  match i with
  | .loadConst _ b c => s.writeReg b c
  | .readMem _ b c d => s.writeReg d (s.readCell (readMemAddress s b c))
  | .bitOr _ b c d => s.writeReg d (s.readReg b ||| s.readReg c)
  | .writeMem _ b c => s.writeCell (writeMemAddress s b) (s.readReg c)

/-- The instruction's data address, if it has one, is in bounds. -/
def inBounds (i : Instr) (s : State) : Prop := ∀ a, dataAddress i s = some a → a < s.memLen

theorem exec_inBounds {i : Instr} {s : State} (h : inBounds i s) :
    exec i s = .next ((effect i s).complete i.width) := by
  cases i with
  | loadConst a b c => rfl
  | bitOr a b c d => rfl
  | readMem a b c d =>
    have := h _ rfl
    simp only [exec, execReadMem, State.access_of_lt this]
    rfl
  | writeMem a b c =>
    have := h _ rfl
    simp only [exec, execWriteMem, State.access_of_lt this]
    rfl

theorem exec_outOfBounds {i : Instr} {s : State} {a : Nat} (h : dataAddress i s = some a)
    (ha : s.memLen ≤ a) : exec i s = .next (s.raise (.outOfBounds a s.pc)) := by
  cases i with
  | loadConst _ b c => cases h
  | bitOr _ b c d => cases h
  | readMem _ b c d =>
    cases h
    simp only [exec, execReadMem, State.access_of_le ha]
  | writeMem _ b c =>
    cases h
    simp only [exec, execWriteMem, State.access_of_le ha]

/-- Everything `exec` can answer: the instruction's effect and the pc moved on, or OutOfBounds raised. -/
theorem exec_cases (i : Instr) (s : State) :
    (inBounds i s ∧ exec i s = .next ((effect i s).complete i.width)) ∨
      ∃ a, dataAddress i s = some a ∧ s.memLen ≤ a ∧
        exec i s = .next (s.raise (.outOfBounds a s.pc)) := by
  by_cases h : inBounds i s
  · exact .inl ⟨h, exec_inBounds h⟩
  · simp only [inBounds, not_forall, Nat.not_lt] at h
    obtain ⟨a, ha, hle⟩ := h
    exact .inr ⟨a, ha, hle, exec_outOfBounds ha hle⟩

@[simp] theorem effect_run (i : Instr) (s : State) : (effect i s).run = s.run := by cases i <;> rfl
@[simp] theorem effect_pc (i : Instr) (s : State) : (effect i s).pc = s.pc := by cases i <;> rfl
@[simp] theorem effect_fault (i : Instr) (s : State) : (effect i s).fault = s.fault := by
  cases i <;> rfl
@[simp] theorem effect_prog (i : Instr) (s : State) : (effect i s).prog = s.prog := by
  cases i <;> rfl
@[simp] theorem effect_memLen (i : Instr) (s : State) : (effect i s).memLen = s.memLen := by
  cases i <;> rfl

/-! ## Steps -/

theorem step_running {s : State} {i : Instr} {npc : Nat} (hr : s.run = .running)
    (hd : decodeAt s.prog s.pc = .ok (i, npc)) : step s = exec i s := by
  simp [step, hr, hd]

theorem step_error {s : State} {e : DecodeError} (hr : s.run = .running)
    (hd : decodeAt s.prog s.pc = .error e) : step s = s.decodeFault e := by
  simp [step, hr, hd]

/-- Everything a step that answers a next state can be: an illegal opcode, a truncated instruction, an access out of
bounds, or an instruction that completes. -/
theorem step_cases {s t : State} (h : step s = .next t) :
    s.run = .running ∧
      ((∃ op, s.prog[s.pc]? = some op ∧ Mnemonic.ofOpcode op = none ∧
          t = s.raise (.unknownOpcode op s.pc)) ∨
        (∃ op m, s.prog[s.pc]? = some op ∧ Mnemonic.ofOpcode op = some m ∧
          s.prog.length < s.pc + m.width ∧ t = s.raise (.truncatedInstruction op s.pc)) ∨
        (∃ i a, decodeAt s.prog s.pc = .ok (i, s.pc + i.width) ∧ dataAddress i s = some a ∧
          s.memLen ≤ a ∧ t = s.raise (.outOfBounds a s.pc)) ∨
        ∃ i, decodeAt s.prog s.pc = .ok (i, s.pc + i.width) ∧ inBounds i s ∧
          t = (effect i s).complete i.width) := by
  have hr : s.run = .running := by
    cases hrun : s.run with
    | running => rfl
    | halted => simp [step, hrun] at h
    | faulted => simp [step, hrun] at h
  refine ⟨hr, ?_⟩
  cases hd : decodeAt s.prog s.pc with
  | error e =>
    rw [step_error hr hd] at h
    rcases decodeAt_error hd with ⟨rfl, -⟩ | ⟨op, rfl, hop, hm⟩ | ⟨op, m, rfl, hop, hm, hl⟩
    · cases h
    · cases h
      exact .inl ⟨op, hop, hm, rfl⟩
    · cases h
      exact .inr (.inl ⟨op, m, hop, hm, hl, rfl⟩)
  | ok r =>
    obtain ⟨i, npc⟩ := r
    have hnpc := (decodeAt_ok hd).2.2.1
    rw [step_running hr hd] at h
    rcases exec_cases i s with ⟨hb, he⟩ | ⟨a, ha, hle, he⟩
    · rw [he] at h
      cases h
      exact .inr (.inr (.inr ⟨i, by rw [hnpc], hb, rfl⟩))
    · rw [he] at h
      cases h
      exact .inr (.inr (.inl ⟨i, a, by rw [hnpc], ha, hle, rfl⟩))

end Sys2Proof.Machine
end

