-- ==== Sys2Proof/Laws/PerInstr.lean ====
section
/-! SUPPORT. Statements about every instruction as text, one lemma per constructor (LAWS.json). -/

namespace Sys2Proof.Laws

/-- An instruction's encoding is its opcode byte and then its operands, as long as the table's width, and the
instruction is well formed (R60, R62, R68). -/
def EncodeShape.Statement (i : Instr) : Prop :=
  (encode i).length = i.width ∧ (encode i).head? = some i.mnemonic.opcode ∧
    (encode i).tail = i.operands ∧ i.wellFormed = true

theorem EncodeShape.loadConst (a b c : Byte) : EncodeShape.Statement (.loadConst a b c) := by
  refine ⟨rfl, rfl, rfl, ?_⟩
  simp [Instr.wellFormed, Instr.toRaw, RawInstr.wellFormed, RawInstr.countOk, RawInstr.rangeOk,
    Instr.operands, Instr.mnemonic, Mnemonic.arity]
  omega

theorem EncodeShape.readMem (a b c d : Byte) : EncodeShape.Statement (.readMem a b c d) := by
  refine ⟨rfl, rfl, rfl, ?_⟩
  simp [Instr.wellFormed, Instr.toRaw, RawInstr.wellFormed, RawInstr.countOk, RawInstr.rangeOk,
    Instr.operands, Instr.mnemonic, Mnemonic.arity]
  omega

theorem EncodeShape.bitOr (a b c d : Byte) : EncodeShape.Statement (.bitOr a b c d) := by
  refine ⟨rfl, rfl, rfl, ?_⟩
  simp [Instr.wellFormed, Instr.toRaw, RawInstr.wellFormed, RawInstr.countOk, RawInstr.rangeOk,
    Instr.operands, Instr.mnemonic, Mnemonic.arity]
  omega

theorem EncodeShape.writeMem (a b c : Byte) : EncodeShape.Statement (.writeMem a b c) := by
  refine ⟨rfl, rfl, rfl, ?_⟩
  simp [Instr.wellFormed, Instr.toRaw, RawInstr.wellFormed, RawInstr.countOk, RawInstr.rangeOk,
    Instr.operands, Instr.mnemonic, Mnemonic.arity]
  omega

end Sys2Proof.Laws
end

