-- ==== Sys2Proof/Laws/Run.lean ====
section
/-! SUPPORT. Runs: the first step of a run and the rest of it, and the one induction over a run that every claim about whole
runs uses. -/

namespace Sys2Proof.Machine

theorem coreRun_zero (M : Host.Core) (s : M.State) : M.run 0 s = .next s := rfl

theorem coreRun_next {M : Host.Core} {s t : M.State} (h : M.step s = .next t) (k : Nat) :
    M.run (k + 1) s = M.run k t := by
  simp only [Host.Core.run, h]

theorem coreRun_succ {M : Host.Core} {s t : M.State} {k : Nat} (h : M.run (k + 1) s = .next t) :
    ∃ u, M.step s = .next u ∧ M.run k u = .next t := by
  simp only [Host.Core.run] at h
  split at h
  · rename_i u hu
    exact ⟨u, hu, h⟩
  · cases h
  · cases h

/-- A run of `k + 1` steps is a step and a run of `k` steps. -/
theorem run_succ {s t : State} {k : Nat} (h : Host.Core.run Sys2Proof.core (k + 1) s = .next t) :
    ∃ u, step s = .next u ∧ Host.Core.run Sys2Proof.core k u = .next t :=
  coreRun_succ (M := Sys2Proof.core) h

theorem run_next {s t : State} (h : step s = .next t) (k : Nat) :
    Host.Core.run Sys2Proof.core (k + 1) s = Host.Core.run Sys2Proof.core k t :=
  coreRun_next (M := Sys2Proof.core) h k

theorem run_zero {s t : State} (h : Host.Core.run Sys2Proof.core 0 s = .next t) : t = s := by
  cases h
  rfl

/-- What holds of a state and is kept by every step holds after every run from it. -/
theorem run_invariant {p : State → Prop} (hstep : ∀ s t, p s → step s = .next t → p t) {k : Nat}
    {s t : State} (hs : p s) (h : Host.Core.run Sys2Proof.core k s = .next t) : p t := by
  induction k generalizing s with
  | zero => exact run_zero h ▸ hs
  | succ k ih =>
    obtain ⟨u, hu, hr⟩ := run_succ h
    exact ih (hstep s u hs hu) hr

/-! The sequencer. -/

theorem State.advance_of_next {s t : State} (h : step s = .next t) : s.advance = t := by
  simp [State.advance, h]

theorem State.advance_of_fault {s : State} {r : Fault} (h : step s = .fault r) : s.advance = s := by
  simp [State.advance, h]

theorem State.drive_of_fixed {s : State} (h : s.advance = s) (n : Nat) : s.drive n = s := by
  induction n with
  | zero => rfl
  | succ n ih => rw [State.drive, h, ih]

/-- The sequencer follows a run for as many turns as the run has steps. -/
theorem State.drive_of_run {k : Nat} {s t : State}
    (h : Host.Core.run Sys2Proof.core k s = .next t) (n : Nat) :
    s.drive (k + n) = t.drive n := by
  induction k generalizing s with
  | zero => rw [run_zero h, Nat.zero_add]
  | succ k ih =>
    obtain ⟨u, hu, hr⟩ := run_succ h
    rw [Nat.succ_add, State.drive, State.advance_of_next hu, ih hr]

end Sys2Proof.Machine
end

