-- ==== Sys2Proof/Tests/Slice0.lean ====
section
/-! SUPPORT. Small tests, with expected results from spec/95_test_vectors.md and hand computation from the rules; and for
each statement with hypotheses a named witness that meets them. -/

namespace Sys2Proof.Tests

open Sys2Proof Sys2Proof.Machine

/-! ## Helpers -/

/-- The start of a run of `P` with the default `MEM_LEN`. -/
def start (P : List Byte) : State := State.resetWith P 256

/-- What a test reads after one step: a function of the next state. -/
def after {α : Type} (s : State) (f : State → α) : Option α := (nextState (step s)).map f

def runOf (s : State) : RunState × Nat × Option FaultRecord := (s.run, s.pc, s.fault)

/-! ## Well-formedness: one ill-formed term for each check, and the typed instructions -/

theorem test_wellFormed_accepts : RawInstr.wellFormed ⟨.loadConst, [255, 3, 7]⟩ = true := by decide
theorem test_wellFormed_count : RawInstr.wellFormed ⟨.loadConst, [0, 1]⟩ = false := by decide
theorem test_wellFormed_count_long :
    RawInstr.wellFormed ⟨.writeMem, [0, 1, 2, 3]⟩ = false := by decide
theorem test_wellFormed_range : RawInstr.wellFormed ⟨.bitOr, [0, 1, 256, 3]⟩ = false := by decide
theorem test_instr_wellFormed : Instr.wellFormed (.readMem 255 255 255 255) = true := by decide

/-! ## Decoding: bytes written out from 30_encoding.md -/

theorem test_decode_loadConst :
    decodeAt [0x09, 0x00, 0x05, 0x2A] 0 = .ok (.loadConst 0 5 42, 4) := by rfl
theorem test_decode_readMem :
    decodeAt [0x0C, 0x00, 0x01, 0x00, 0x03] 0 = .ok (.readMem 0 1 0 3, 5) := by rfl
theorem test_decode_bitOr :
    decodeAt [0x11, 0x09, 0x02, 0x01, 0x04] 0 = .ok (.bitOr 9 2 1 4, 5) := by rfl
theorem test_decode_writeMem :
    decodeAt [0x1B, 0x07, 0x09, 0x00] 0 = .ok (.writeMem 7 9 0, 4) := by rfl
/-- W1: the READ_MEM at byte 12. -/
theorem test_decode_inside_program :
    decodeAt [0x09, 0x00, 0x01, 0x0A, 0x09, 0x00, 0x02, 0x2A, 0x1B, 0x00, 0x01, 0x02,
      0x0C, 0x00, 0x01, 0x00, 0x03] 12 = .ok (.readMem 0 1 0 3, 17) := by rfl
/-- The neighbours of the legal opcodes are unknown. -/
theorem test_decode_neighbours :
    ([0x08, 0x0A, 0x0B, 0x0D, 0x10, 0x12, 0x1A, 0x1C].map fun b => Mnemonic.ofOpcode b) =
      List.replicate 8 none := by decide
/-- W9: operand A is kept. -/
theorem test_encode_keeps_a : encode (.loadConst 255 3 7) = [0x09, 0xFF, 0x03, 0x07] := by decide
theorem test_table_word_loadConst :
    decodeTableWord 32 0x09000000 = some (.loadConst 0 0 0) := by rfl
theorem test_table_word_bitOr :
    decodeTableWord 40 0x1101020304 = some (.bitOr 1 2 3 4) := by rfl

/-! ## Decode faults -/

/-- W3. -/
theorem test_unknown_opcode :
    after (start [0x05]) runOf = some (.faulted, 0, some (.unknownOpcode 5 0)) := by decide
/-- W4. -/
theorem test_truncated :
    after (start [0x0C]) runOf = some (.faulted, 0, some (.truncatedInstruction 12 0)) := by decide
/-- V-D5: a 5-byte instruction given 4 bytes. -/
theorem test_truncated_by_one :
    after (start [0x0C, 0, 0, 0]) runOf =
      some (.faulted, 0, some (.truncatedInstruction 12 0)) := by decide
/-- V-D12, its second step: the opcode check comes before the width check. -/
theorem test_opcode_before_width :
    after { start [0x09, 0, 0, 0, 0xFF] with pc := 4 } runOf =
      some (.faulted, 4, some (.unknownOpcode 255 4)) := by decide

/-! ## The instructions -/

/-- V-L2 and V-D4: A is ignored, and the run halts at the end of the Program. -/
theorem test_loadConst :
    after (start [0x09, 0xFF, 0x05, 0x2A]) (fun t => (t.readReg 5, t.readReg 0, runOf t)) =
      some (42, 0, .halted, 4, none) := by decide
/-- V-L3: register 0 is writable; and a longer program stays Running. -/
theorem test_loadConst_reg0 :
    after (start [0x09, 0x00, 0x00, 0xC8, 0x05]) (fun t => (t.readReg 0, runOf t)) =
      some (200, .running, 4, none) := by decide
/-- V-O3: overlapping bits. -/
theorem test_bitOr :
    after (((start [0x11, 0, 1, 2, 3]).writeReg 1 0x0C).writeReg 2 0x0A)
      (fun t => (t.readReg 3, runOf t)) = some (0x0E, .halted, 5, none) := by decide
/-- V-O6: D = B, the old x1 is read. -/
theorem test_bitOr_dest_is_source :
    after (((start [0x11, 0, 1, 2, 1]).writeReg 1 0x80).writeReg 2 0x01)
      (fun t => (t.readReg 1, t.readReg 2)) = some (0x81, 0x01) := by decide
/-- V-R8, its third step: D = B uses the old x4 as address. -/
theorem test_readMem_dest_is_base :
    after (((start [0x0C, 0, 4, 3, 4]).writeReg 4 7).writeCell 10 99)
      (fun t => (t.readReg 4, runOf t)) = some (99, .halted, 5, none) := by decide
/-- V-R4: 255 + 1 does not wrap to cell 0. -/
theorem test_readMem_no_wrap :
    after (((start [0x0C, 0, 1, 1, 2]).writeReg 1 255).writeCell 0 99)
      (fun t => (t.readReg 2, runOf t)) =
      some (0, .faulted, 0, some (.outOfBounds 256 0)) := by decide
/-- V-W2: the highest cell of a memory of 16. -/
theorem test_writeMem :
    after ((State.resetWith [0x1B, 0, 1, 2] 16).writeReg 1 15 |>.writeReg 2 42)
      (fun t => (t.mem, runOf t)) = some ([(15, 42)], .halted, 4, none) := by decide
/-- V-W1: one past it. -/
theorem test_writeMem_out_of_bounds :
    after ((State.resetWith [0x1B, 0, 1, 1] 16).writeReg 1 16)
      (fun t => (t.mem, runOf t)) =
      some ([], .faulted, 0, some (.outOfBounds 16 0)) := by decide

/-! ## Memory, reset, no step -/

theorem test_memory_write_keeps_order :
    Memory.write 3 5 [(1, 9), (7, 9)] = [(1, 9), (3, 5), (7, 9)] := by decide
theorem test_memory_write_zero_removes :
    Memory.write 7 0 [(1, 9), (7, 9)] = [(1, 9)] := by decide
theorem test_memory_wf_refuses_disorder : Memory.wf [(7, 9), (1, 9)] = false := by decide
theorem test_memory_wf_refuses_zero : Memory.wf [(7, 0)] = false := by decide
theorem reset_memory_wf : State.reset.mem.wf = true := by decide
/-- V-D0. -/
theorem test_reset_empty_is_halted : runOf State.reset = (.halted, 0, none) := by decide
theorem test_no_step_when_halted : step State.reset = .fault .stepInHalted := by rfl
theorem test_fetch_word_runs :
    after (State.reset.withFetchWord 40 0x1101010203) (fun t => (t.run, t.pc)) =
      some (.halted, 5) := by decide

/-! ## Ports -/

/-- The end of W1, as far as the snapshot port sees it. -/
def w1End : State := { State.reset with mem := [(10, 42)] }

/-- V-S2 and V-S1. -/
theorem test_snapshot :
    w1End.snapshot 9 11 = .ok [0, 42, 0] ∧ w1End.snapshot 10 10 = .ok [42] := by decide
/-- V-S4 and V-S5. -/
theorem test_snapshot_range_error :
    w1End.snapshot 0 256 = .rangeError ∧ w1End.snapshot 11 10 = .rangeError := by decide
/-- V-S6. -/
theorem test_snapshot_faulted : ({ w1End with run := .faulted } : State).snapshot 0 0 = .noSnapshot := by
  decide
theorem test_trace_keeps_a :
    (start [0x09, 0xFF, 0x05, 0x2A]).trace =
      some ⟨0, some ⟨.loadConst, [255, 5, 42]⟩, .success⟩ := by decide
/-- The codes of R142. -/
theorem test_status_codes :
    [none, some (FaultRecord.unknownOpcode 5 0), some (.truncatedInstruction 12 0),
      some (.outOfBounds 256 4)].map statusCode = [0, 1, 2, 3] := by decide

/-! ## The assembler -/

/-- W9, with a comment line and a comment behind the operands. -/
theorem test_assemble :
    assemble "# top\n\nload_const 255 3 7 # A kept\nOR 0 1 2 3".toList =
      .ok [0x09, 0xFF, 0x03, 0x07, 0x11, 0, 1, 2, 3] := by rfl
theorem test_assemble_errors :
    assemble "OR 0 1 2 3\nJUMP 0".toList = .error (.unknownMnemonic 2) ∧
    assemble "OR 0 1 2".toList = .error (.wrongOperandCount 1) ∧
    assemble "OR 0 1 2 256".toList = .error (.operandOutOfRange 1) ∧
    assemble "OR 0 1 2 0x1".toList = .error (.operandOutOfRange 1) := by
  exact ⟨by rfl, by rfl, by rfl, by rfl⟩

/-! ## Witnesses: a concrete input that meets all hypotheses of each statement, clause by clause -/

/-- W1's first instruction as a program of its own. -/
def loadState : State := start [0x09, 0x00, 0x05, 0x2A]

/-- READ_MEM 0 1 C 2 with x1 = 0 or another base. -/
def readState (c base : Byte) : State := (start [0x0C, 0, 1, c, 2]).writeReg 1 base

/-- WRITE_MEM 0 1 2 with x1 = `addr`, x2 = 42, in a memory of 16 cells. -/
def writeState (addr : Byte) : State :=
  ((State.resetWith [0x1B, 0, 1, 2] 16).writeReg 1 addr).writeReg 2 42

/-- A state of a run that faulted: the end of W3. -/
def faultedState : State := (start [0x05]).raise (.unknownOpcode 5 0)

theorem loadState_inv : loadState.Inv where
  running _ := by decide
  halted h := absurd h (by decide)
  faulted h := absurd h (by decide)
  memWf := by decide
  memBound := by intro a v h; cases h

theorem witness_RestartForgetsOldRun :
    loadState.prog = (loadState.writeReg 5 1).prog ∧
      loadState.memLen = (loadState.writeReg 5 1).memLen ∧
      loadState ≠ loadState.writeReg 5 1 := by decide

theorem witness_StepKeepsInvariant : ∃ t, loadState.Inv ∧ step loadState = .next t :=
  ⟨_, loadState_inv, rfl⟩

theorem witness_RunningStateAlwaysSteps : loadState.Inv ∧ loadState.run = .running :=
  ⟨loadState_inv, rfl⟩

/-- Also the witness of the other statements about a run of k steps from reset. -/
theorem witness_ReachableStatesMeetInvariant :
    ∃ t, Host.Core.run Sys2Proof.core 1 (State.resetWith [0x09, 0x00, 0x05, 0x2A] 256) = .next t ∧
      t.run = .halted :=
  ⟨_, run_next (s := loadState) rfl 0, rfl⟩

/-- A run that ends Faulted, for the clauses about one. -/
theorem witness_run_faulted :
    ∃ t, Host.Core.run Sys2Proof.core 1 (State.resetWith [0x05] 256) = .next t ∧
      t.run = .faulted :=
  ⟨_, run_next (s := start [0x05]) rfl 0, rfl⟩

theorem witness_EndedRunTakesNoStep :
    State.reset.run = .halted ∧ faultedState.run = .faulted := by decide

theorem witness_StepRunsDecodedInstruction :
    loadState.run = .running ∧
      decodeAt loadState.prog loadState.pc = .ok (.loadConst 0 5 42, 4) := ⟨rfl, rfl⟩

/-- The ends of every range of illegal opcodes. -/
theorem witness_IllegalOpcodesAreUnknown :
    ∀ op ∈ ([0, 8, 10, 11, 13, 16, 18, 26, 28, 255] : List Byte),
      op.toNat ≤ 8 ∨ op.toNat = 10 ∨ op.toNat = 11 ∨ (13 ≤ op.toNat ∧ op.toNat ≤ 16) ∨
        (18 ≤ op.toNat ∧ op.toNat ≤ 26) ∨ 28 ≤ op.toNat := by decide

theorem witness_UnknownOpcodeFaults :
    (start [0x05]).run = .running ∧ (start [0x05]).prog[(start [0x05]).pc]? = some 0x05 ∧
      (0x05 : Byte) ≠ 9 ∧ (0x05 : Byte) ≠ 12 ∧ (0x05 : Byte) ≠ 17 ∧ (0x05 : Byte) ≠ 27 := by decide

/-- One byte short, for each of the four opcodes; also the witness of the decode-fault clauses of the four result
statements. -/
theorem witness_TruncatedInstructionFaults :
    ∀ P ∈ ([[0x09, 0, 1], [0x1B, 0, 1], [0x0C, 0, 1, 2], [0x11, 0, 1, 2]] : List (List Byte)),
      (start P).run = .running ∧
        ∃ op : Byte, op = P.headD 0 ∧ (start P).prog[(start P).pc]? = some op ∧
          ((op = 9 ∨ op = 27) ∧ (start P).pc + 4 > (start P).prog.length ∨
            (op = 12 ∨ op = 17) ∧ (start P).pc + 5 > (start P).prog.length) := by
  intro P hP
  refine ⟨?_, P.headD 0, rfl, ?_⟩ <;> revert P <;> decide

theorem witness_OperandsFollowOpcode :
    ∀ op ∈ ([9, 27, 12, 17] : List Byte),
      [op, 1, 2, 3, 4][0 + 1]? = some 1 ∧ [op, 1, 2, 3, 4][0 + 2]? = some 2 ∧
        [op, 1, 2, 3, 4][0 + 3]? = some 3 ∧ [op, 1, 2, 3, 4][0 + 4]? = some 4 ∧
        [op, 1, 2, 3, 4][0]? = some op := by decide

theorem witness_EncodeDecodeAgree :
    decodeAt [0x05, 0x09, 0x00, 0x05, 0x2A] 1 = .ok (.loadConst 0 5 42, 5) := rfl

/-- Two programs that differ in the byte after the instruction. -/
theorem witness_DecoderReadsOnlyItsInstruction :
    let P : List Byte := [0x09, 0x00, 0x05, 0x2A, 0x01]
    let Q : List Byte := [0x09, 0x00, 0x05, 0x2A, 0x02]
    P ≠ Q ∧ P.length = Q.length ∧ P[0]? = some 0x09 ∧ Mnemonic.ofOpcode 0x09 = some .loadConst ∧
      ∀ k, k < Mnemonic.loadConst.width → P[0 + k]? = Q[0 + k]? := by decide

/-- The largest word of each width, and one that has the match value. -/
theorem witness_PatternSelectsInstruction :
    0xFFFFFFFF < 2 ^ (8 * Mnemonic.writeMem.width) ∧
      0xFFFFFFFFFF < 2 ^ (8 * Mnemonic.bitOr.width) ∧
      0x1101020304 &&& Mnemonic.bitOr.patternMask = Mnemonic.bitOr.patternMatch := by decide

theorem witness_FetchWordRunsTableWord :
    decodeTableWord 32 0x0900052A = some (.loadConst 0 5 42) := rfl

/-- In bounds at the last cell, out of bounds one past it. -/
theorem witness_ReadMemResult :
    readMemAddress (readState 255 0) 1 255 < (readState 255 0).memLen ∧
      (readState 255 1).memLen ≤ readMemAddress (readState 255 1) 1 255 := by decide

theorem witness_WriteMemResult :
    (writeState 15).mem.wf = true ∧
      writeMemAddress (writeState 15) 1 < (writeState 15).memLen ∧
      (writeState 16).memLen ≤ writeMemAddress (writeState 16) 1 := by decide

/-- The start state of V-O1, and the clauses for equal sources, a source of 0 and a source of 0xFF. -/
theorem witness_OrIsBitwise :
    let s := ((start [0x11, 0, 1, 2, 3]).writeReg 1 0xF0).writeReg 2 0xFF
    (∃ t, exec (.bitOr 0 1 2 3) s = .next t) ∧ (∃ t, exec (.bitOr 0 1 1 3) s = .next t) ∧
      s.readReg 9 = 0 ∧ s.readReg 2 = 0xFF :=
  ⟨⟨_, rfl⟩, ⟨_, rfl⟩, by decide, by decide +kernel⟩

/-- A store: some register is not its destination, some cell not its address. -/
theorem witness_OnlyListedStateWritten :
    (∃ t, exec (.writeMem 0 1 2) (writeState 15) = .next t ∧ t.run ≠ .faulted) ∧
      destReg (.writeMem 0 1 2) ≠ some 7 ∧
      storeAddress (.writeMem 0 1 2) (writeState 15) ≠ some 14 :=
  ⟨⟨_, rfl, by decide⟩, by decide, by decide⟩

theorem witness_OnlyListedStateRead :
    (∃ t, exec (.readMem 0 1 255 2) (readState 255 0) = .next t) ∧
      (7 : Byte) ∉ sourceRegs (.readMem 0 1 255 2) ∧ destReg (.readMem 0 1 255 2) ≠ some 7 ∧
      (readState 255 0).mem.wf = true ∧
      dataAddress (.readMem 0 1 255 2) (readState 255 0) ≠ some 254 :=
  ⟨⟨_, rfl⟩, by decide, by decide, by decide, by decide⟩

/-- A step that faults: also the witness of the faulting clause of PcAdvancesByWidth and TraceReportsEveryStep. -/
theorem witness_FaultChangesOnlyRunAndRecord :
    step (start [0x05]) = .next faultedState ∧ faultedState.run = .faulted := ⟨rfl, rfl⟩

/-- A step that succeeds: also the witness of HaltExactlyAtProgramEnd and TraceReportsEveryStep. -/
theorem witness_PcAdvancesByWidth :
    ∃ t, step loadState = .next t ∧ t.run ≠ .faulted :=
  ⟨_, rfl, by decide⟩

/-- The last two clauses, at the bound: cell 255 and one past it. -/
theorem witness_FaultPriorityOrder :
    (readState 255 1).run = .running ∧
      (readState 255 1).prog[(readState 255 1).pc]? = some 0x0C ∧
      Mnemonic.ofOpcode 0x0C = some .readMem ∧
      (readState 255 1).pc + Mnemonic.readMem.width ≤ (readState 255 1).prog.length ∧
      (readState 255 1).memLen = 256 ∧
      dataAddress (.readMem 0 1 255 2) (readState 255 1) = some 256 ∧
      dataAddress (.readMem 0 1 255 2) (readState 255 0) = some 255 := by decide

theorem witness_BoundsCheckEveryAccess :
    dataAddress (.readMem 0 1 255 2) (readState 255 1) = some 256 ∧
      ¬ 256 < (readState 255 1).memLen ∧
      dataAddress (.writeMem 0 1 2) (writeState 15) = some 15 ∧ 15 < (writeState 15).memLen := by
  decide

theorem witness_DefaultMemLenFaults :
    (readState 255 1).memLen = 256 ∧ (readState 255 1).run = .running ∧
      (∃ t, exec (.writeMem 0 1 2) (readState 255 1) = .next t) ∧
      ∃ t, exec (.readMem 0 1 255 2) (readState 255 1) = .next t :=
  ⟨rfl, rfl, ⟨_, rfl⟩, ⟨_, rfl⟩⟩

/-- A Running state; every program and `MEM_LEN` meets the second clause. -/
theorem witness_EveryRunEnds : loadState.Inv ∧ loadState.run = .running := ⟨loadState_inv, rfl⟩

/-- The write of the run of loadState: register 5 was written, register 6 was not. -/
theorem witness_RegistersHoldLatestWrite :
    regWriteLog 1 loadState = [(5, 42)] ∧ ∀ v, (6, v) ∉ regWriteLog 1 loadState := by
  have h : regWriteLog 1 loadState = [(5, 42)] := by rfl
  exact ⟨h, fun v hv => by rw [h] at hv; simp at hv⟩

theorem witness_MemoryHoldsLatestStore :
    (writeState 15).mem.wf = true ∧ storeLog 1 (writeState 15) = [(15, 42)] ∧
      ∃ t, Host.Core.run Sys2Proof.core 1 (writeState 15) = .next t :=
  ⟨rfl, by decide, _, run_next (s := writeState 15) rfl 0⟩

theorem witness_StoreThenLoadReturnsValue :
    ∃ t, (writeState 15).mem.wf = true ∧
      writeMemAddress (writeState 15) 1 < (writeState 15).memLen ∧
      exec (.writeMem 0 1 2) (writeState 15) = .next t ∧
      readMemAddress t 1 0 = writeMemAddress (writeState 15) 1 :=
  ⟨_, rfl, by decide, rfl, by decide +kernel⟩

/-- The last range in bounds and the first one beyond. -/
theorem witness_SnapshotAnswersRange :
    w1End.run = .halted ∧ ((255 ≤ 255) ∧ 255 < w1End.memLen) ∧
      ¬ (255 ≤ 256 ∧ 256 < w1End.memLen) := by decide

/-- A well-formed line, and each of the three errors. -/
theorem witness_AssemblerErrors :
    parseMnemonic ['J', 'M', 'P'] = none ∧ parseMnemonic ['o', 'r'] = some .bitOr ∧
      [['1'], ['2'], ['3']].length ≠ Mnemonic.bitOr.arity ∧
      [['1'], ['2'], ['3'], ['2', '5', '6']].length = Mnemonic.bitOr.arity ∧
      parseDecimal ['2', '5', '6'] = some 256 ∧ parseDecimal ['0', 'x', '1'] = none ∧
      parseDecimal ['2', '5', '5'] = some 255 := by decide

/-- The second clause: a good line, then a bad one. -/
theorem witness_AssemblerErrors_abort :
    assembleLines 1 ["OR 0 1 2 3".toList] = .ok [.bitOr 0 1 2 3] ∧
      lineTokens "JMP 0".toList = ['J', 'M', 'P'] :: [['0']] ∧
      assembleTokens 2 ['J', 'M', 'P'] [['0']] = .error (.unknownMnemonic 2) := by
  exact ⟨by rfl, by rfl, by rfl⟩

theorem witness_AssembledProgramDecodesBack :
    assemble "OR 0 1 2 3\nWRITE_MEM 0 1 2".toList =
      .ok [0x11, 0, 1, 2, 3, 0x1B, 0, 1, 2] := by rfl

end Sys2Proof.Tests
end

/-! # The register-write history of a run (O39)

The log of a run's register writes, looked up at a register, gives what the register reads: proved for one step, lifted to
a run of any length from any state, and read at reset, where every register is 0. -/

namespace Sys2Proof.Machine

/-! ## Decode errors as decoder answers -/

theorem decodeAt_unknownOpcode {P : List Byte} {pc : Nat} {op : Byte} (hop : P[pc]? = some op)
    (hm : Mnemonic.ofOpcode op = none) : decodeAt P pc = .error (.unknownOpcode op pc) := by
  simp [decodeAt, hop, hm]

theorem decodeAt_truncated {P : List Byte} {pc : Nat} {op : Byte} {m : Mnemonic}
    (hop : P[pc]? = some op) (hm : Mnemonic.ofOpcode op = some m) (hlen : P.length < pc + m.width) :
    decodeAt P pc = .error (.truncatedInstruction op pc) := by
  simp [decodeAt, hop, hm, hlen]

/-! ## The register write of one step -/

theorem regWriteOf_of_decodeError {s : State} {e : DecodeError}
    (hd : decodeAt s.prog s.pc = .error e) : regWriteOf s = [] := by
  cases hr : s.run <;> simp [regWriteOf, hr, hd]

theorem regWriteOf_of_outOfBounds {s : State} {i : Instr} {npc a : Nat} (hr : s.run = .running)
    (hd : decodeAt s.prog s.pc = .ok (i, npc)) (ha : dataAddress i s = some a)
    (hle : s.memLen ≤ a) : regWriteOf s = [] := by
  cases i with
  | loadConst _ b c => cases ha
  | bitOr _ b c d => cases ha
  | writeMem _ b c => simp [regWriteOf, hr, hd]
  | readMem _ b c d =>
    cases ha
    simp [regWriteOf, hr, hd, hle]

/-- A log of one write gives what the register reads after that write. -/
theorem readReg_writeReg_eq_lookup (s : State) (i v r : Byte) :
    (s.writeReg i v).readReg r = (([(i, v)] : List (Byte × Byte)).lookup r).getD (s.readReg r) := by
  rw [State.readReg_writeReg, List.lookup_singleton]
  by_cases h : r = i <;> simp [h]

/-- An instruction that completes changes the registers exactly as its logged write says. -/
theorem effect_readReg {s : State} {i : Instr} {npc : Nat} (hr : s.run = .running)
    (hd : decodeAt s.prog s.pc = .ok (i, npc)) (hb : inBounds i s) (r : Byte) :
    (effect i s).readReg r = ((regWriteOf s).lookup r).getD (s.readReg r) := by
  cases i with
  | loadConst _ b c =>
    have hlog : regWriteOf s = [(b, c)] := by simp [regWriteOf, hr, hd]
    rw [hlog, ← readReg_writeReg_eq_lookup, effect]
  | readMem _ b c d =>
    have hlog : regWriteOf s = [(d, s.readCell (readMemAddress s b c))] := by
      simp [regWriteOf, hr, hd, hb _ rfl]
    rw [hlog, ← readReg_writeReg_eq_lookup, effect]
  | bitOr _ b c d =>
    have hlog : regWriteOf s = [(d, s.readReg b ||| s.readReg c)] := by simp [regWriteOf, hr, hd]
    rw [hlog, ← readReg_writeReg_eq_lookup, effect]
  | writeMem _ b c =>
    have hlog : regWriteOf s = [] := by simp [regWriteOf, hr, hd]
    rw [hlog, effect, State.writeCell_readReg, List.lookup_nil, Option.getD_none]

/-- After a step every register reads the step's logged write to it, or what it read before (R25, R141). -/
theorem step_readReg {s t : State} (h : step s = .next t) (r : Byte) :
    t.readReg r = ((regWriteOf s).lookup r).getD (s.readReg r) := by
  obtain ⟨hr, ⟨op, hop, hm, rfl⟩ | ⟨op, m, hop, hm, hlen, rfl⟩ | ⟨i, a, hd, ha, hle, rfl⟩ |
    ⟨i, hd, hb, rfl⟩⟩ := step_cases h
  · simp [regWriteOf_of_decodeError (decodeAt_unknownOpcode hop hm)]
  · simp [regWriteOf_of_decodeError (decodeAt_truncated hop hm hlen)]
  · simp [regWriteOf_of_outOfBounds hr hd ha hle]
  · rw [State.complete_readReg, effect_readReg hr hd hb]

/-! ## The register writes of a run -/

theorem regWriteLog_succ {s t : State} (h : step s = .next t) (k : Nat) :
    regWriteLog (k + 1) s = regWriteLog k t ++ regWriteOf s := by
  simp only [regWriteLog, h]

/-- After a run from any state every register reads the latest logged write to it, or what it read at the start. -/
theorem run_readReg {k : Nat} {s t : State} (h : Host.Core.run Sys2Proof.core k s = .next t)
    (r : Byte) : t.readReg r = ((regWriteLog k s).lookup r).getD (s.readReg r) := by
  induction k generalizing s with
  | zero =>
    rw [run_zero h]
    rfl
  | succ k ih =>
    obtain ⟨u, hu, hrun⟩ := run_succ h
    rw [ih hrun, step_readReg hu, regWriteLog_succ hu, List.lookup_append, Option.getD_or]

/-- Settles O39, by the write log of a run from any state, read at reset where every register is 0. -/
theorem registersHoldLatestWrite : Obligations.RegistersHoldLatestWrite := by
  intro P n k t r h
  have hread : t.readReg r = ((regWriteLog k (State.resetWith P n)).lookup r).getD 0 := by
    rw [run_readReg h, State.resetWith_readReg]
  refine ⟨fun hnone => ?_, hread⟩
  have hlookup : (regWriteLog k (State.resetWith P n)).lookup r = none := by
    rw [List.lookup_eq_none_iff]
    rintro ⟨r', v⟩ hmem
    exact bne_iff_ne.2 fun heq => hnone v (heq ▸ hmem)
  rw [hread, hlookup, Option.getD_none]

end Sys2Proof.Machine

/-! # The snapshot port in Halted (O41)

The answer of the port in Halted is a test of the range, and the list it answers with has one entry for each cell from
`start` to `stop`. -/

namespace Sys2Proof.Machine

/-! ## The cells of a range -/

@[simp] theorem State.length_cellRange (s : State) (start stop : Nat) :
    (s.cellRange start stop).length = stop - start + 1 := by
  rw [cellRange, List.length_map, List.length_range]

/-- Both ends are in the range: entry `stop - start` is the last cell (R50). -/
theorem State.getElem?_cellRange (s : State) {start stop k : Nat} (hk : k ≤ stop - start) :
    (s.cellRange start stop)[k]? = some (s.readCell (start + k)) := by
  rw [cellRange, List.getElem?_map, List.getElem?_range (Nat.lt_succ_of_le hk), Option.map_some]

/-! ## The port's answers in Halted -/

theorem State.snapshot_of_halted {s : State} (hr : s.run = .halted) (start stop : Nat) :
    s.snapshot start stop =
      if start ≤ stop ∧ stop < s.memLen then .ok (s.cellRange start stop) else .rangeError := by
  simp only [snapshot, hr]

/-- Settles O41: in Halted the port tests the range, and answers a good one with its cells. -/
theorem snapshotAnswersRange : Obligations.SnapshotAnswersRange := by
  intro s start stop hr
  rw [State.snapshot_of_halted hr]
  refine ⟨fun hrange => ?_, fun hrange => if_neg hrange⟩
  exact ⟨s.cellRange start stop, if_pos hrange, s.length_cellRange start stop,
    fun k hk => s.getElem?_cellRange hk⟩

end Sys2Proof.Machine

/-! # The rows of the Instruction Table (O9)

Opcode dispatch and `Mnemonic.opcode` are inverse to each other on the four bytes of the table, so the whole byte
decides the mnemonic. -/

namespace Sys2Proof

/-- A byte selects a mnemonic exactly when it is that mnemonic's opcode (R63). -/
theorem Mnemonic.ofOpcode_eq_some_iff {op : Byte} {m : Mnemonic} :
    Mnemonic.ofOpcode op = some m ↔ op = m.opcode := by
  constructor
  · exact Mnemonic.opcode_of_ofOpcode
  · rintro rfl
    exact Mnemonic.ofOpcode_opcode m

/-- Settles O9: each row is read off the table, and dispatch is the inverse of `Mnemonic.opcode`. -/
theorem instructionTableRows : Obligations.InstructionTableRows := by
  refine ⟨?loadConst, ?readMem, ?bitOr, ?writeMem, fun op m => Mnemonic.ofOpcode_eq_some_iff⟩
  case loadConst => exact ⟨rfl, rfl, Mnemonic.width_loadConst⟩
  case readMem => exact ⟨rfl, rfl, Mnemonic.width_readMem⟩
  case bitOr => exact ⟨rfl, rfl, Mnemonic.width_bitOr⟩
  case writeMem => exact ⟨rfl, rfl, Mnemonic.width_writeMem⟩

end Sys2Proof

/-! # Operand extraction (O13)

An instruction whose last operand byte is in the Program fits, so the decoder answers the bytes that follow the opcode. -/

namespace Sys2Proof

theorem byteAt_of_getElem? {P : List Byte} {i : Nat} {b : Byte} (h : P[i]? = some b) :
    byteAt P i = b := by
  rw [byteAt, List.getD_eq_getElem?_getD, h, Option.getD_some]

/-- A legal opcode whose last operand byte is in the Program passes the width check (R83) and is decoded (R84). -/
theorem decodeAt_of_lastOperand {P : List Byte} {pc : Nat} {m : Mnemonic} {b : Byte}
    (hop : P[pc]? = some m.opcode) (hlast : P[pc + m.arity]? = some b) :
    decodeAt P pc = .ok (instrAt m P pc, pc + m.width) := by
  obtain ⟨hlt, -⟩ := List.getElem?_eq_some_iff.1 hlast
  have hfits : pc + m.width ≤ P.length := by
    rw [Mnemonic.width]
    omega
  exact decodeAt_of_fits hop hfits

/-- Settles O13: the instruction fits because its last operand is in the Program, and each operand is the byte there. -/
theorem operandsFollowOpcode : Obligations.OperandsFollowOpcode := by
  intro P pc a b c d ha hb hc
  have ha' : byteAt P (pc + 1) = a := byteAt_of_getElem? ha
  have hb' : byteAt P (pc + 2) = b := byteAt_of_getElem? hb
  have hc' : byteAt P (pc + 3) = c := byteAt_of_getElem? hc
  refine ⟨fun hop => ?loadConst, fun hop => ?writeMem, fun hop hd => ?readMem, fun hop hd => ?bitOr⟩
  case loadConst =>
    rw [decodeAt_of_lastOperand (m := .loadConst) hop hc, instrAt, ha', hb', hc',
      Mnemonic.width_loadConst]
  case writeMem =>
    rw [decodeAt_of_lastOperand (m := .writeMem) hop hc, instrAt, ha', hb', hc',
      Mnemonic.width_writeMem]
  case readMem =>
    rw [decodeAt_of_lastOperand (m := .readMem) hop hd, instrAt, ha', hb', hc',
      byteAt_of_getElem? hd, Mnemonic.width_readMem]
  case bitOr =>
    rw [decodeAt_of_lastOperand (m := .bitOr) hop hd, instrAt, ha', hb', hc',
      byteAt_of_getElem? hd, Mnemonic.width_bitOr]

end Sys2Proof

/-! # The pc sequencer and the decode faults (O11, O12, O30, O31)

A step raises a fault or completes the decoded instruction. On a fault only the run state and the fault record change; on
completion the new pc and the run state are those of `State.complete`. -/

namespace Sys2Proof.Machine

/-! ## The decode faults of a step -/

theorem step_unknownOpcode {s : State} {op : Byte} (hr : s.run = .running)
    (hop : s.prog[s.pc]? = some op) (hm : Mnemonic.ofOpcode op = none) :
    step s = .next (s.raise (.unknownOpcode op s.pc)) :=
  step_error hr (decodeAt_unknownOpcode hop hm)

theorem step_truncated {s : State} {m : Mnemonic} (hr : s.run = .running)
    (hop : s.prog[s.pc]? = some m.opcode) (hlen : s.prog.length < s.pc + m.width) :
    step s = .next (s.raise (.truncatedInstruction m.opcode s.pc)) :=
  step_error hr (decodeAt_truncated hop (Mnemonic.ofOpcode_opcode m) hlen)

/-- Settles O11: a byte that is none of the four opcodes names no mnemonic, and that alone decides the step. -/
theorem unknownOpcodeFaults : Obligations.UnknownOpcodeFaults := by
  intro s op hr hop h9 h12 h17 h27
  have hm : Mnemonic.ofOpcode op = none := Mnemonic.ofOpcode_eq_none.2 ⟨h9, h12, h17, h27⟩
  exact step_unknownOpcode hr hop hm

/-- Settles O12, with one mnemonic for each of the four opcodes. -/
theorem truncatedInstructionFaults : Obligations.TruncatedInstructionFaults := by
  rintro s op hr hop (⟨rfl | rfl, hlen⟩ | ⟨rfl | rfl, hlen⟩)
  · exact step_truncated (m := .loadConst) hr hop hlen
  · exact step_truncated (m := .writeMem) hr hop hlen
  · exact step_truncated (m := .readMem) hr hop hlen
  · exact step_truncated (m := .bitOr) hr hop hlen

/-! ## Success and fault of a step -/

/-- The run state of a completed instruction (R89): a Running state never becomes Faulted by completing. -/
theorem complete_effect_run {s : State} (hr : s.run = .running) (i : Instr) :
    ((effect i s).complete i.width).run =
      if s.pc + i.width = s.prog.length then .halted else .running := by
  rw [State.complete_run, effect_run, effect_pc, effect_prog, hr, runAfter]

/-- A step that ends in Faulted raised a fault (R141). -/
theorem step_eq_raise {s t : State} (h : step s = .next t) (hf : t.run = .faulted) :
    ∃ f, t = s.raise f := by
  obtain ⟨hr, ⟨op, -, -, rfl⟩ | ⟨op, m, -, -, -, rfl⟩ | ⟨i, a, -, -, -, rfl⟩ | ⟨i, -, -, rfl⟩⟩ :=
    step_cases h
  · exact ⟨_, rfl⟩
  · exact ⟨_, rfl⟩
  · exact ⟨_, rfl⟩
  · rw [complete_effect_run hr] at hf
    split_ifs at hf

/-- A step that does not end in Faulted completed the decoded instruction in Running (R86, R90). -/
theorem step_eq_complete {s t : State} (h : step s = .next t) (hf : t.run ≠ .faulted) :
    s.run = .running ∧ ∃ i, decodeAt s.prog s.pc = .ok (i, s.pc + i.width) ∧
      t = (effect i s).complete i.width := by
  obtain ⟨hr, ⟨op, -, -, rfl⟩ | ⟨op, m, -, -, -, rfl⟩ | ⟨i, a, -, -, -, rfl⟩ | ⟨i, hd, -, ht⟩⟩ :=
    step_cases h
  · exact absurd (State.raise_run ..) hf
  · exact absurd (State.raise_run ..) hf
  · exact absurd (State.raise_run ..) hf
  · exact ⟨hr, i, hd, ht⟩

/-- Settles O30: completing moves pc by the decoded width, and raising a fault leaves it. -/
theorem pcAdvancesByWidth : Obligations.PcAdvancesByWidth := by
  intro s t h
  refine ⟨fun hok => ?success, fun hf => ?fault⟩
  case success =>
    obtain ⟨-, i, hd, rfl⟩ := step_eq_complete h hok
    have hpc : ((effect i s).complete i.width).pc = s.pc + i.width := by
      rw [State.complete_pc, effect_pc]
    exact ⟨i, by rw [hpc, hd], hpc, i.mnemonic.width_cases⟩
  case fault =>
    obtain ⟨f, rfl⟩ := step_eq_raise h hf
    exact s.raise_pc f

/-- Settles O31: the run state of the completed instruction compares its new pc with `PROG_LEN`. -/
theorem haltExactlyAtProgramEnd : Obligations.HaltExactlyAtProgramEnd := by
  intro s t h hok
  obtain ⟨hr, i, -, rfl⟩ := step_eq_complete h hok
  rw [complete_effect_run hr, State.complete_pc, effect_pc]

end Sys2Proof.Machine

/-! # Faults and the order of the checks (O28, O29)

The record of each of the three checks explains the state it is raised in, because raising a fault keeps everything the
cause is computed from. Each check of R143 decides the step where the ones before it passed. -/

namespace Sys2Proof.Machine

/-! ## The record of each check is true -/

@[simp] theorem dataAddress_raise (i : Instr) (s : State) (f : FaultRecord) :
    dataAddress i (s.raise f) = dataAddress i s := by
  cases i <;> rfl

/-- The largest data address is READ_MEM's sum of two bytes (R121). -/
theorem dataAddress_le {i : Instr} {s : State} {a : Nat} (h : dataAddress i s = some a) :
    a ≤ 510 := by
  cases i with
  | loadConst _ b c => cases h
  | bitOr _ b c d => cases h
  | readMem _ b c d =>
    cases h
    rw [readMemAddress]
    omega
  | writeMem _ b c =>
    cases h
    rw [writeMemAddress]
    omega

theorem explains_unknownOpcode {s : State} {op : Byte} (hop : s.prog[s.pc]? = some op)
    (hm : Mnemonic.ofOpcode op = none) :
    (FaultRecord.unknownOpcode op s.pc).Explains (s.raise (.unknownOpcode op s.pc)) :=
  ⟨rfl, hop, Mnemonic.ofOpcode_eq_none.1 hm⟩

theorem explains_truncated {s : State} {op : Byte} {m : Mnemonic} (hop : s.prog[s.pc]? = some op)
    (hm : Mnemonic.ofOpcode op = some m) (hlen : s.prog.length < s.pc + m.width) :
    (FaultRecord.truncatedInstruction op s.pc).Explains
      (s.raise (.truncatedInstruction op s.pc)) := by
  obtain rfl : op = m.opcode := Mnemonic.opcode_of_ofOpcode hm
  refine ⟨rfl, hop, ?_⟩
  cases m with
  | loadConst => exact .inl ⟨.inl rfl, hlen⟩
  | writeMem => exact .inl ⟨.inr rfl, hlen⟩
  | readMem => exact .inr ⟨.inl rfl, hlen⟩
  | bitOr => exact .inr ⟨.inr rfl, hlen⟩

theorem explains_outOfBounds {s : State} {i : Instr} {npc a : Nat}
    (hd : decodeAt s.prog s.pc = .ok (i, npc)) (ha : dataAddress i s = some a)
    (hle : s.memLen ≤ a) :
    (FaultRecord.outOfBounds a s.pc).Explains (s.raise (.outOfBounds a s.pc)) :=
  ⟨rfl, hle, dataAddress_le ha, i, npc, hd, (dataAddress_raise i s _).trans ha⟩

/-- A completed instruction is no fault, and leaves the fault record (R89, R141). -/
theorem complete_effect_no_fault {s : State} (hr : s.run = .running) (i : Instr) :
    ((effect i s).complete i.width).run ≠ .faulted ∧
      ((effect i s).complete i.width).fault = s.fault := by
  refine ⟨fun hf => ?_, ?_⟩
  · rw [complete_effect_run hr] at hf
    split_ifs at hf
  · rw [State.complete_fault, effect_fault]

/-- The record of a step that ends in Faulted tells the truth about the state that holds it (R142). -/
theorem step_fault_explains {s t : State} (h : step s = .next t) (hf : t.run = .faulted) :
    ∃ f, t = s.raise f ∧ f.Explains t := by
  obtain ⟨hr, ⟨op, hop, hm, rfl⟩ | ⟨op, m, hop, hm, hlen, rfl⟩ | ⟨i, a, hd, ha, hle, rfl⟩ |
    ⟨i, -, -, rfl⟩⟩ := step_cases h
  · exact ⟨_, rfl, explains_unknownOpcode hop hm⟩
  · exact ⟨_, rfl, explains_truncated hop hm hlen⟩
  · exact ⟨_, rfl, explains_outOfBounds hd ha hle⟩
  · exact absurd hf (complete_effect_no_fault hr i).1

theorem step_of_faulted {s : State} (hf : s.run = .faulted) : step s = .fault .stepInFaulted := by
  simp only [step, hf]

/-- Settles O28: a faulting step raises a record that explains its state, and raising keeps all else. -/
theorem faultChangesOnlyRunAndRecord : Obligations.FaultChangesOnlyRunAndRecord := by
  intro s t h hf
  obtain ⟨f, rfl, hexplains⟩ := step_fault_explains h hf
  exact ⟨⟨f, rfl, hexplains⟩, fun r => s.raise_readReg r f, fun a => s.raise_readCell a f,
    s.raise_pc f, step_of_faulted hf⟩

/-! ## The order of the checks -/

theorem step_outOfBounds {s : State} {i : Instr} {npc a : Nat} (hr : s.run = .running)
    (hd : decodeAt s.prog s.pc = .ok (i, npc)) (ha : dataAddress i s = some a)
    (hle : s.memLen ≤ a) : step s = .next (s.raise (.outOfBounds a s.pc)) :=
  (step_running hr hd).trans (exec_outOfBounds ha hle)

theorem step_inBounds {s : State} {i : Instr} {npc : Nat} (hr : s.run = .running)
    (hd : decodeAt s.prog s.pc = .ok (i, npc)) (hb : inBounds i s) :
    step s = .next ((effect i s).complete i.width) :=
  (step_running hr hd).trans (exec_inBounds hb)

/-- Settles O29: opcode, then width, then data address, each check deciding the step where those before it passed. -/
theorem faultPriorityOrder : Obligations.FaultPriorityOrder := by
  intro s op hr hop
  refine ⟨step_unknownOpcode hr hop, fun m hm => ?legal⟩
  obtain rfl : op = m.opcode := Mnemonic.opcode_of_ofOpcode hm
  refine ⟨step_truncated hr hop, fun hfits => ?fits⟩
  have hd := decodeAt_of_fits hop hfits
  refine ⟨instrAt m s.prog s.pc, hd, instrAt_mnemonic m s.prog s.pc,
    fun a ha hle => step_outOfBounds hr hd ha hle, fun hb => ?inBounds⟩
  exact ⟨_, step_inBounds hr hd hb, complete_effect_no_fault hr _⟩

end Sys2Proof.Machine

/-! # Encoding and decoding (O14, O15, O16, O10, O18, O25)

An encoding is the opcode byte and the bytes that `instrAt` reads, so that the decoder's answer at pc depends on those
bytes alone: wherever an instruction's encoding stands, that instruction is decoded, and nothing else is. -/

namespace Sys2Proof

/-! ## The bytes the decoder reads -/

theorem Mnemonic.width_eq_succ_arity (m : Mnemonic) : m.width = m.arity + 1 :=
  Nat.add_comm 1 m.arity

theorem encode_instrAt (m : Mnemonic) (P : List Byte) (pc : Nat) :
    encode (instrAt m P pc) = m.opcode :: (List.range' (pc + 1) m.arity).map (byteAt P) := by
  cases m <;> rfl

theorem instrAt_encode (i : Instr) : instrAt i.mnemonic (encode i) 0 = i := by
  cases i <;> rfl

/-- Programs that agree on an instruction's bytes, each from its own pc on, hold the same instruction (R81). -/
theorem instrAt_congr {m : Mnemonic} {P Q : List Byte} {pc qc : Nat}
    (h : ∀ k, k < m.width → byteAt P (pc + k) = byteAt Q (qc + k)) :
    instrAt m P pc = instrAt m Q qc := by
  cases m with
  | loadConst => simp only [instrAt, h 1 (by decide), h 2 (by decide), h 3 (by decide)]
  | writeMem => simp only [instrAt, h 1 (by decide), h 2 (by decide), h 3 (by decide)]
  | readMem =>
    simp only [instrAt, h 1 (by decide), h 2 (by decide), h 3 (by decide), h 4 (by decide)]
  | bitOr =>
    simp only [instrAt, h 1 (by decide), h 2 (by decide), h 3 (by decide), h 4 (by decide)]

theorem byteAt_append_middle (pre post : List Byte) {l : List Byte} {k : Nat} (hk : k < l.length) :
    byteAt (pre ++ l ++ post) (pre.length + k) = byteAt l k := by
  rw [byteAt, byteAt, List.getD_eq_getElem?_getD, List.getD_eq_getElem?_getD, List.append_assoc,
    List.getElem?_append_right (Nat.le_add_right ..), Nat.add_sub_cancel_left,
    List.getElem?_append_left hk]

/-- A stretch inside the Program is the list of its bytes. -/
theorem take_drop_eq_map_byteAt {P : List Byte} {pc n : Nat} (h : pc + n ≤ P.length) :
    (P.drop pc).take n = (List.range' pc n).map (byteAt P) := by
  refine List.ext_getElem (by simp; omega) fun k hk _ => ?_
  have hkn : k < n := hk.trans_le (List.length_take_le ..)
  simp [byteAt, List.getElem?_eq_getElem (show pc + k < P.length by omega)]

/-! ## Decode after encode, encode after decode -/

/-- Settles O14: the opcode byte stands at pc, the instruction fits, and its operands are read from its own bytes. -/
theorem decodeEncodeAgree : Obligations.DecodeEncodeAgree := by
  intro pre post i
  have hop : (pre ++ encode i ++ post)[pre.length]? = some i.mnemonic.opcode := by simp [encode]
  have hfits : pre.length + i.mnemonic.width ≤ (pre ++ encode i ++ post).length := by
    simp only [List.length_append, encode_length, Instr.width]
    omega
  have hinstr : instrAt i.mnemonic (pre ++ encode i ++ post) pre.length = i := by
    refine (instrAt_congr fun k hk => ?_).trans (instrAt_encode i)
    rw [Nat.zero_add, byteAt_append_middle pre post (hk.trans_eq (encode_length i).symm)]
  rw [decodeAt_of_fits hop hfits, hinstr, encode_length, Instr.width]

/-- Settles O15: the bytes from pc on are the opcode byte and then the operands that `instrAt` read. -/
theorem encodeDecodeAgree : Obligations.EncodeDecodeAgree := by
  intro P pc npc i h
  obtain ⟨hop, hinstr, hnpc, hfits⟩ := decodeAt_ok h
  have hbytes : (P.drop pc).take i.width = encode i := by
    rw [take_drop_eq_map_byteAt hfits, Instr.width, Mnemonic.width_eq_succ_arity, List.range'_succ,
      List.map_cons, byteAt_of_getElem? hop, ← encode_instrAt, ← hinstr]
  rw [encode_length]
  exact ⟨hbytes, hnpc, hnpc.trans_le hfits⟩

/-- What is decoded at the start of a program is decoded wherever that program is placed. -/
theorem decodeAt_append {P : List Byte} {i : Instr} {n : Nat} (h : decodeAt P 0 = .ok (i, n))
    (pre post : List Byte) :
    decodeAt (pre ++ P ++ post) pre.length = .ok (i, pre.length + i.width) := by
  obtain ⟨hbytes, -, -⟩ := encodeDecodeAgree P 0 n i h
  have hP : P = encode i ++ P.drop (encode i).length := by
    rw [List.drop_zero] at hbytes
    exact (List.take_append_drop (encode i).length P).symm.trans (by rw [hbytes])
  rw [hP, ← List.append_assoc pre, List.append_assoc _ _ post, decodeEncodeAgree, encode_length]

/-- Settles O16: the width check sees the common length only, and the operands are common bytes. -/
theorem decoderReadsOnlyItsInstruction : Obligations.DecoderReadsOnlyItsInstruction := by
  intro P Q pc op m hlen hopP hm hbytes
  have hopQ : Q[pc]? = some op := (hbytes 0 (by cases m <;> decide)).symm.trans hopP
  have hinstr : instrAt m P pc = instrAt m Q pc := instrAt_congr fun k hk => by
    rw [byteAt, byteAt, List.getD_eq_getElem?_getD, List.getD_eq_getElem?_getD, hbytes k hk]
  simp only [decodeAt, hopP, hopQ, hm, hlen, hinstr]

/-! ## Illegal opcodes, operand A and words written out -/

/-- Settles O10: a byte in one of the ranges of R67 is none of the four opcodes; the bytes are counted. -/
theorem illegalOpcodesAreUnknown : Obligations.IllegalOpcodesAreUnknown := by
  refine ⟨fun pre post op hranges => ?unknown, by decide +kernel⟩
  have hm : Mnemonic.ofOpcode op = none := by
    refine Mnemonic.ofOpcode_eq_none.2 ⟨?_, ?_, ?_, ?_⟩ <;>
    · rintro rfl
      revert hranges
      decide
  exact Machine.decodeAt_unknownOpcode (by simp) hm

/-- Settles O25: no meaning looks at A, and the decoder gives back the encoded instruction with its A. -/
theorem operandAIgnored : Obligations.OperandAIgnored := by
  intro a a' b c d s post
  refine ⟨rfl, rfl, rfl, rfl, ?_, ?_, ?_, ?_⟩
  · exact decodeEncodeAgree [] post (.loadConst a b c)
  · exact decodeEncodeAgree [] post (.readMem a b c d)
  · exact decodeEncodeAgree [] post (.bitOr a b c d)
  · exact decodeEncodeAgree [] post (.writeMem a b c)

/-- Settles O18: six fixed words, each evaluated. -/
theorem tableWordsDecode : Obligations.TableWordsDecode :=
  ⟨rfl, rfl, rfl, rfl, rfl, rfl⟩

end Sys2Proof

/-! # Table words (O17, O19)

Byte 0 of a word of a mnemonic's width is the word shifted down by its operand bytes, and the pattern's mask and match
are that byte's, shifted up. A word that decodes is decoded wherever it is placed. -/

namespace Sys2Proof

theorem decodeTableWord_eq_some {nbits w : Nat} {i : Instr} :
    decodeTableWord nbits w = some i ↔ ∃ n, decodeAt (tableBytes nbits w) 0 = .ok (i, n) := by
  rw [decodeTableWord]
  cases decodeAt (tableBytes nbits w) 0 with
  | error e => simp
  | ok r => simp [Prod.ext_iff]

/-! ## Byte 0 of a word and the pattern -/

theorem tableBytes_opcode (m : Mnemonic) (w : Nat) :
    (tableBytes (8 * m.width) w)[0]? = some (BitVec.ofNat 8 (w >>> (8 * m.arity))) := by
  cases m <;> rfl

theorem width_le_length_tableBytes (m : Mnemonic) (w : Nat) :
    m.width ≤ (tableBytes (8 * m.width) w).length := by
  cases m <;> simp [tableBytes]

theorem Mnemonic.patternMask_eq (m : Mnemonic) : m.patternMask = 255 <<< (8 * m.arity) := by
  cases m <;> rfl

theorem Mnemonic.patternMatch_eq (m : Mnemonic) :
    m.patternMatch = m.opcode.toNat <<< (8 * m.arity) := by
  cases m <;> rfl

/-- Masking one byte of a word compares that byte. -/
theorem and_byteMask_eq_iff (w k : Nat) (b : Byte) :
    w &&& 255 <<< k = b.toNat <<< k ↔ BitVec.ofNat 8 (w >>> k) = b := by
  have hmask : w &&& 255 <<< k = (w >>> k % 256) <<< k := by
    rw [← Nat.and_two_pow_sub_one_eq_mod (w >>> k) 8]
    refine Nat.eq_of_testBit_eq fun j => ?_
    by_cases hj : k ≤ j
    · simp [hj, -Nat.and_two_pow_sub_one_eq_mod]
    · simp [hj]
  rw [hmask, ← BitVec.toNat_inj, BitVec.toNat_ofNat, Nat.shiftLeft_eq, Nat.shiftLeft_eq,
    Nat.mul_left_inj (Nat.two_pow_pos k).ne']

/-- A word of a mnemonic's width always fits, so its opcode byte alone decides whether that mnemonic is decoded. -/
theorem decodeTableWord_mnemonic_iff (m : Mnemonic) (w : Nat) :
    (∃ i, decodeTableWord (8 * m.width) w = some i ∧ i.mnemonic = m) ↔
      BitVec.ofNat 8 (w >>> (8 * m.arity)) = m.opcode := by
  constructor
  · rintro ⟨i, hi, rfl⟩
    obtain ⟨n, hd⟩ := decodeTableWord_eq_some.1 hi
    obtain ⟨hop, -, -, -⟩ := decodeAt_ok hd
    rw [tableBytes_opcode] at hop
    exact Option.some.inj hop
  · intro hop
    have hd := decodeAt_of_fits ((tableBytes_opcode m w).trans (congrArg some hop))
      ((Nat.zero_add _).trans_le (width_le_length_tableBytes m w))
    exact ⟨_, decodeTableWord_eq_some.2 ⟨_, hd⟩, instrAt_mnemonic ..⟩

/-- Settles O17: mask and match compare the opcode byte, and the opcode byte decides. -/
theorem patternSelectsInstruction : Obligations.PatternSelectsInstruction := by
  intro m w _
  rw [decodeTableWord_mnemonic_iff, ← and_byteMask_eq_iff, Mnemonic.patternMask_eq,
    Mnemonic.patternMatch_eq]

/-! ## A word placed where the next step fetches -/

/-- A word that decodes is what the decoder reads where the word was placed. -/
theorem decodeAt_spliceAt {bs : List Byte} {i : Instr} {n : Nat} (h : decodeAt bs 0 = .ok (i, n))
    (P : List Byte) (pc : Nat) : decodeAt (spliceAt P pc bs) pc = .ok (i, pc + i.width) := by
  have hpre : (P.take pc ++ List.replicate (pc - P.length) 0).length = pc := by
    simp only [List.length_append, List.length_take, List.length_replicate]
    omega
  have hd := decodeAt_append h (P.take pc ++ List.replicate (pc - P.length) 0)
    (P.drop (pc + bs.length))
  rwa [hpre] at hd

/-- Settles O19: the step of the Running state decodes the placed word. -/
theorem fetchWordRunsTableWord : Obligations.FetchWordRunsTableWord := by
  intro s nbits w i h
  obtain ⟨n, hd⟩ := decodeTableWord_eq_some.1 h
  exact Machine.step_running (s.withFetchWord_run nbits w) (decodeAt_spliceAt hd s.prog s.pc)

end Sys2Proof

/-! # The instructions: result, frame and bounds (O20 to O24, O26, O32, O33, O40)

An instruction whose data address is in bounds has its `effect` and moves on; otherwise it raises OutOfBounds. What the
effect does to registers and cells is said once for all instructions. -/

namespace Sys2Proof.Machine

/-! ## When an instruction is in bounds -/

theorem inBounds_of_dataAddress_none {i : Instr} {s : State} (h : dataAddress i s = none) :
    inBounds i s := fun a ha => by
  rw [h] at ha
  cases ha

theorem inBounds_of_lt {i : Instr} {s : State} {a : Nat} (h : dataAddress i s = some a)
    (ha : a < s.memLen) : inBounds i s := fun b hb => by
  obtain rfl : a = b := Option.some.inj (h.symm.trans hb)
  exact ha

/-! ## The effect on registers and cells -/

theorem State.readCell_writeCell_same {s : State} (h : s.mem.wf = true) (a : Nat) (v : Byte) :
    (s.writeCell a v).readCell a = v :=
  Memory.read_write_same a v h

theorem State.readCell_writeCell_other (s : State) {a k : Nat} (v : Byte) (h : k ≠ a) :
    (s.writeCell a v).readCell k = s.readCell k :=
  Memory.read_write_other v s.mem h

/-- No register but the destination changes (R25, R101). -/
theorem effect_readReg_other {i : Instr} {r : Byte} (h : destReg i ≠ some r) (s : State) :
    (effect i s).readReg r = s.readReg r := by
  cases i with
  | loadConst _ b c => exact s.readReg_writeReg_other c (ne_of_apply_ne some h).symm
  | readMem _ b c d => exact s.readReg_writeReg_other _ (ne_of_apply_ne some h).symm
  | bitOr _ b c d => exact s.readReg_writeReg_other _ (ne_of_apply_ne some h).symm
  | writeMem _ b c => exact s.writeCell_readReg ..

/-- No cell but the one stored to changes (R29, R126). -/
theorem effect_readCell_other {i : Instr} {s : State} {a : Nat} (h : storeAddress i s ≠ some a) :
    (effect i s).readCell a = s.readCell a := by
  cases i with
  | loadConst _ b c => exact s.writeReg_readCell ..
  | readMem _ b c d => exact s.writeReg_readCell ..
  | bitOr _ b c d => exact s.writeReg_readCell ..
  | writeMem _ b c =>
    exact s.readCell_writeCell_other _ (ne_of_apply_ne some h).symm

/-- An instruction in bounds completes: its effect on registers and cells, the moved pc, the run state of R89, and the
rest as it was. -/
theorem exec_completes {i : Instr} {s : State} (hb : inBounds i s) :
    ∃ t, exec i s = .next t ∧ (∀ r, t.readReg r = (effect i s).readReg r) ∧
      (∀ k, t.readCell k = (effect i s).readCell k) ∧ t.pc = s.pc + i.width ∧
      t.run = (if s.pc + i.width = s.prog.length then RunState.halted else s.run) ∧
      t.fault = s.fault ∧ t.prog = s.prog ∧ t.memLen = s.memLen :=
  ⟨_, exec_inBounds hb, fun _ => rfl, fun _ => rfl, by simp, by simp [runAfter], by simp, by simp,
    by simp⟩

/-! ## The result of each instruction -/

/-- Settles O20: LOAD_CONST has no data address, so it completes, and its effect writes register B. -/
theorem loadConstResult : Obligations.LoadConstResult := by
  intro a b c s
  obtain ⟨t, ht, hreg, hcell, hrest⟩ :=
    exec_completes (inBounds_of_dataAddress_none (i := .loadConst a b c) (s := s) rfl)
  refine ⟨rfl, ⟨t, ht, ?dest, fun r hr => ?other, hcell, hrest⟩,
    step_truncated (m := .loadConst)⟩
  case dest => exact (hreg b).trans (s.readReg_writeReg_same b c)
  case other => exact (hreg r).trans (s.readReg_writeReg_other c hr)

/-- Settles O21: OR has no data address, so it completes, and its effect writes register D. -/
theorem orResult : Obligations.OrResult := by
  intro a b c d s
  obtain ⟨t, ht, hreg, hcell, hrest⟩ :=
    exec_completes (inBounds_of_dataAddress_none (i := .bitOr a b c d) (s := s) rfl)
  refine ⟨rfl, ⟨t, ht, ?dest, fun r hr => ?other, hcell, hrest⟩, step_truncated (m := .bitOr)⟩
  case dest => exact (hreg d).trans (s.readReg_writeReg_same d _)
  case other => exact (hreg r).trans (s.readReg_writeReg_other _ hr)

/-- Settles O22: in bounds READ_MEM completes and its effect writes register D; otherwise it raises OutOfBounds. -/
theorem readMemResult : Obligations.ReadMemResult := by
  intro a b c d s
  refine ⟨rfl, rfl, fun hlt => ?inBounds, exec_outOfBounds (i := .readMem a b c d) rfl,
    step_truncated (m := .readMem)⟩
  obtain ⟨t, ht, hreg, hcell, hrest⟩ :=
    exec_completes (inBounds_of_lt (i := .readMem a b c d) rfl hlt)
  refine ⟨t, ht, ?dest, fun r hr => ?other, hcell, hrest⟩
  case dest => exact (hreg d).trans (s.readReg_writeReg_same d _)
  case other => exact (hreg r).trans (s.readReg_writeReg_other _ hr)

/-- Settles O23: in bounds WRITE_MEM completes and its effect writes the cell; otherwise it raises OutOfBounds. -/
theorem writeMemResult : Obligations.WriteMemResult := by
  intro a b c s
  refine ⟨rfl, rfl, fun hwf hlt => ?inBounds, exec_outOfBounds (i := .writeMem a b c) rfl,
    step_truncated (m := .writeMem)⟩
  obtain ⟨t, ht, hreg, hcell, hrest⟩ :=
    exec_completes (inBounds_of_lt (i := .writeMem a b c) rfl hlt)
  refine ⟨t, ht, ?stored, fun k hk => ?other, hreg, hrest⟩
  case stored => exact (hcell _).trans (State.readCell_writeCell_same hwf _ _)
  case other => exact (hcell k).trans (s.readCell_writeCell_other _ hk)

/-- Settles O24: the result of OR is the disjunction of the two bytes, and that has each of the properties. -/
theorem orIsBitwise : Obligations.OrIsBitwise := by
  intro a b c d s t h
  obtain ⟨-, ⟨u, hu, hdest, -⟩, -⟩ := orResult a b c d s
  obtain rfl : u = t := Host.Outcome.next.inj (hu.symm.trans h)
  have hswap : exec (.bitOr a c b d) s = exec (.bitOr a b c d) s := by
    simp only [exec, execBitOr, BitVec.or_comm]
  rw [hdest]
  refine ⟨fun k _ => BitVec.getLsbD_or, hswap.trans h, ?equal, ?zero, ?ones, ?above⟩
  case equal =>
    rintro rfl
    exact BitVec.or_self
  case zero =>
    intro hc
    rw [hc]
    exact BitVec.or_zero
  case ones =>
    intro hc
    rw [hc]
    exact BitVec.or_allOnes
  case above =>
    rw [BitVec.toNat_or]
    exact max_le Nat.left_le_or Nat.right_le_or

/-! ## The frame and the bounds check -/

/-- Settles O26: the effect's frame where the instruction completes; raising a fault writes nothing listed. -/
theorem onlyListedStateWritten : Obligations.OnlyListedStateWritten := by
  intro i s t h
  rcases exec_cases i s with ⟨-, he⟩ | ⟨a, -, -, he⟩
  · obtain rfl := Host.Outcome.next.inj (he.symm.trans h)
    exact ⟨fun r hr => effect_readReg_other hr s, fun a ha => effect_readCell_other ha,
      effect_prog i s, effect_memLen i s, fun _ => effect_fault i s⟩
  · obtain rfl := Host.Outcome.next.inj (he.symm.trans h)
    exact ⟨fun r _ => s.raise_readReg r _, fun k _ => s.raise_readCell k _, s.raise_prog _,
      s.raise_memLen _, fun hf => absurd (s.raise_run _) hf⟩

/-- Settles O32: the data address decides between raising OutOfBounds and completing. -/
theorem boundsCheckEveryAccess : Obligations.BoundsCheckEveryAccess := by
  intro i s addr h
  refine ⟨?address, fun hout => exec_outOfBounds h (Nat.not_lt.1 hout), fun hlt => ?completes⟩
  case address =>
    cases i with
    | loadConst a b c => cases h
    | bitOr a b c d => cases h
    | readMem a b c d => exact .inl ⟨a, b, c, d, rfl, (Option.some.inj h).symm⟩
    | writeMem a b c => exact .inr ⟨a, b, c, rfl, (Option.some.inj h).symm⟩
  case completes =>
    obtain ⟨t, ht, -, -, hpc, -, hfault, -⟩ := exec_completes (inBounds_of_lt h hlt)
    exact ⟨t, ht, hfault, hpc⟩

/-- In Running an instruction faults exactly when its data address is out of bounds (R44). -/
theorem exec_faults_iff {i : Instr} {s t : State} {addr : Nat} (hr : s.run = .running)
    (h : dataAddress i s = some addr) (ht : exec i s = .next t) :
    t.run = .faulted ↔ s.memLen ≤ addr := by
  by_cases hle : s.memLen ≤ addr
  · obtain rfl := Host.Outcome.next.inj ((exec_outOfBounds h hle).symm.trans ht)
    exact iff_of_true (s.raise_run _) hle
  · obtain rfl := Host.Outcome.next.inj
      ((exec_inBounds (inBounds_of_lt h (Nat.not_le.1 hle))).symm.trans ht)
    exact iff_of_false (complete_effect_no_fault hr i).1 hle

/-- Settles O33: a register is below 256, a sum need not be. -/
theorem defaultMemLenFaults : Obligations.DefaultMemLenFaults := by
  intro a b c d s t hlen hr
  refine ⟨fun ht hf => ?write, fun ht => ?read⟩
  case write =>
    have hle : s.memLen ≤ (s.readReg b).toNat := (exec_faults_iff hr rfl ht).1 hf
    omega
  case read =>
    rw [exec_faults_iff hr rfl ht, hlen, readMemAddress]

/-- Settles O40: the store leaves `MEM_LEN` and puts the value into the cell that the load reads. -/
theorem storeThenLoadReturnsValue : Obligations.StoreThenLoadReturnsValue := by
  intro a b c a' b' c' d s t hwf hlt h haddr
  obtain ⟨-, -, hstore, -⟩ := writeMemResult a b c s
  obtain ⟨t', ht', hcell, -, -, -, -, -, -, hlen⟩ := hstore hwf hlt
  obtain rfl : t' = t := Host.Outcome.next.inj (ht'.symm.trans h)
  obtain ⟨-, -, hload, -⟩ := readMemResult a' b' c' d t'
  obtain ⟨u, hu, hdest, -⟩ := hload (by rwa [haddr, hlen])
  exact ⟨u, hu, by rw [hdest, haddr, hcell]⟩

end Sys2Proof.Machine

/-! # What an instruction reads (O27)

A change to the state that keeps the data address, and that the effect commutes with, commutes with the whole
instruction. Changing a register or a cell that is not listed is such a change. -/

namespace Sys2Proof.Machine

/-! ## Writes to different places commute -/

theorem RegFile.set_comm (x : RegFile) {i j : Byte} (v w : Byte) (h : i ≠ j) :
    (x.set i v).set j w = (x.set j w).set i v := by
  refine RegFile.ext fun k => ?_
  simp only [RegFile.get_set]
  by_cases hi : k = i
  · simp [hi, h]
  · simp [hi]

theorem State.writeReg_comm (s : State) {i j : Byte} (v w : Byte) (h : i ≠ j) :
    (s.writeReg i v).writeReg j w = (s.writeReg j w).writeReg i v := by
  simp only [State.writeReg, RegFile.set_comm s.x v w h]

theorem Memory.write_comm {m : Memory} (hm : m.wf = true) {a b : Nat} (v w : Byte) (h : a ≠ b) :
    (m.write a v).write b w = (m.write b w).write a v := by
  refine Memory.ext (wf_write _ _ (wf_write _ _ hm)) (wf_write _ _ (wf_write _ _ hm)) fun k => ?_
  by_cases ha : k = a
  · subst ha
    rw [read_write_other w _ h, read_write_same k v hm, read_write_same k v (wf_write _ _ hm)]
  · rw [read_write_other v (m.write b w) ha]
    by_cases hb : k = b
    · subst hb
      rw [read_write_same k w hm, read_write_same k w (wf_write _ _ hm)]
    · rw [read_write_other w _ hb, read_write_other w _ hb, read_write_other v _ ha]

theorem State.writeCell_comm {s : State} (hm : s.mem.wf = true) {a b : Nat} (v w : Byte)
    (h : a ≠ b) : (s.writeCell a v).writeCell b w = (s.writeCell b w).writeCell a v := by
  simp only [State.writeCell, Memory.write_comm hm v w h]

theorem State.writeReg_writeCell_comm (s : State) (i v : Byte) (a : Nat) (w : Byte) :
    (s.writeReg i v).writeCell a w = (s.writeCell a w).writeReg i v := rfl

/-! ## Changing a register or a cell that is not listed -/

/-- Changing a register that is no source leaves every source as it was. -/
theorem readReg_source {i : Instr} {r : Byte} (h : r ∉ sourceRegs i) (s : State) (v : Byte) :
    ∀ b ∈ sourceRegs i, (s.writeReg r v).readReg b = s.readReg b :=
  fun _ hb => s.readReg_writeReg_other v fun hbr => h (hbr ▸ hb)

/-- A register that is no source is not in the data address. -/
theorem dataAddress_writeReg {i : Instr} {r : Byte} (h : r ∉ sourceRegs i) (s : State) (v : Byte) :
    dataAddress i (s.writeReg r v) = dataAddress i s := by
  cases i with
  | loadConst _ b c => rfl
  | bitOr _ b c d => rfl
  | readMem _ b c d =>
    simp only [dataAddress, readMemAddress, readReg_source h s v b List.mem_cons_self]
  | writeMem _ b c =>
    simp only [dataAddress, writeMemAddress, readReg_source h s v b List.mem_cons_self]

theorem effect_writeReg {i : Instr} {r : Byte} (hs : r ∉ sourceRegs i) (hd : destReg i ≠ some r)
    (s : State) (v : Byte) : effect i (s.writeReg r v) = (effect i s).writeReg r v := by
  have hread := readReg_source hs s v
  cases i with
  | loadConst _ b c => exact s.writeReg_comm v c (ne_of_apply_ne some hd).symm
  | readMem _ b c d =>
    rw [effect, readMemAddress, hread b (by simp [sourceRegs])]
    exact s.writeReg_comm v _ (ne_of_apply_ne some hd).symm
  | bitOr _ b c d =>
    rw [effect, hread b (by simp [sourceRegs]), hread c (by simp [sourceRegs])]
    exact s.writeReg_comm v _ (ne_of_apply_ne some hd).symm
  | writeMem _ b c =>
    rw [effect, writeMemAddress, hread b (by simp [sourceRegs]), hread c (by simp [sourceRegs])]
    exact s.writeReg_writeCell_comm ..

theorem dataAddress_writeCell (i : Instr) (s : State) (a : Nat) (v : Byte) :
    dataAddress i (s.writeCell a v) = dataAddress i s := by
  cases i <;> rfl

theorem effect_writeCell {i : Instr} {s : State} (hm : s.mem.wf = true) {a : Nat}
    (ha : dataAddress i s ≠ some a) (v : Byte) :
    effect i (s.writeCell a v) = (effect i s).writeCell a v := by
  cases i with
  | loadConst _ b c => rfl
  | bitOr _ b c d => rfl
  | readMem _ b c d =>
    have hcell : (s.writeCell a v).readCell (readMemAddress s b c) =
        s.readCell (readMemAddress s b c) := s.readCell_writeCell_other v (ne_of_apply_ne some ha)
    exact congrArg (fun u => (s.writeCell a v).writeReg d u) hcell
  | writeMem _ b c => exact s.writeCell_comm hm v _ (ne_of_apply_ne some ha).symm

/-- What commutes with the effect and leaves the data address and `MEM_LEN` commutes with the instruction. -/
theorem exec_comm {i : Instr} {s t : State} {f : State → State}
    (haddr : dataAddress i (f s) = dataAddress i s) (hlen : (f s).memLen = s.memLen)
    (heffect : effect i (f s) = f (effect i s))
    (hcomplete : ∀ u n, (f u).complete n = f (u.complete n))
    (hraise : ∀ a, (f s).raise (.outOfBounds a (f s).pc) = f (s.raise (.outOfBounds a s.pc)))
    (h : exec i s = .next t) : exec i (f s) = .next (f t) := by
  rcases exec_cases i s with ⟨hb, he⟩ | ⟨a, ha, hle, he⟩
  · obtain rfl := Host.Outcome.next.inj (he.symm.trans h)
    have hb' : inBounds i (f s) := by rwa [inBounds, haddr, hlen]
    rw [exec_inBounds hb', heffect, hcomplete]
  · obtain rfl := Host.Outcome.next.inj (he.symm.trans h)
    rw [exec_outOfBounds (haddr.trans ha) (hlen.trans_le hle), hraise]

/-- Settles O27: changing an unlisted register or cell commutes with the instruction. -/
theorem onlyListedStateRead : Obligations.OnlyListedStateRead := by
  intro i s t v h
  refine ⟨fun r hs hd => ?register, fun a hm ha => ?cell⟩
  case register =>
    exact exec_comm (f := fun u => u.writeReg r v) (dataAddress_writeReg hs s v) rfl
      (effect_writeReg hs hd s v) (fun _ _ => rfl) (fun _ => rfl) h
  case cell =>
    exact exec_comm (f := fun u => u.writeCell a v) (dataAddress_writeCell i s a v) rfl
      (effect_writeCell hm ha v) (fun _ _ => rfl) (fun _ => rfl) h

end Sys2Proof.Machine

/-! # Reset, the invariant and the step (O1 to O8, O34, O36)

A step of a Running state raises a fault whose record is true, or completes the decoded instruction in bounds. Both keep
`State.Inv`, and reset has it, so every state of every run has it. -/

namespace Sys2Proof.Machine

/-! ## Reset -/

/-- Settles O1, each row of the reset table by its own lemma. -/
theorem resetStateValues : Obligations.ResetStateValues := by
  refine ⟨fun P n => ⟨?run, State.resetWith_pc n P, State.resetWith_readReg P n, fun a => rfl,
    State.resetWith_fault n P, State.resetWith_prog n P, State.resetWith_memLen n P⟩, rfl⟩
  simp only [State.resetWith, List.length_eq_zero_iff]

/-- The reset state meets the invariant: it is Running at byte 0 of a program that has one, or Halted. -/
theorem resetWith_inv (P : List Byte) (n : Nat) : (State.resetWith P n).Inv where
  running h := by
    cases P with
    | nil => cases h
    | cons b P => exact ⟨Nat.succ_pos _, rfl⟩
  halted h := by
    cases P with
    | nil => exact ⟨rfl, rfl⟩
    | cons b P => cases h
  faulted h := by
    cases P with
    | nil => cases h
    | cons b P => cases h
  memWf := Memory.wf_nil
  memBound _ _ h := by cases h

/-- Settles O2: `State.reset` is one of the reset states. -/
theorem resetMeetsInvariant : Obligations.ResetMeetsInvariant :=
  ⟨resetWith_inv, resetWith_inv [] Config.defaultMemLen⟩

/-- Settles O3: a restart is the reset state of the program store and `MEM_LEN`. -/
theorem restartForgetsOldRun : Obligations.RestartForgetsOldRun := by
  intro s t hprog hlen
  refine ⟨?same, resetWith_inv s.prog s.memLen, rfl, rfl, rfl, rfl⟩
  rw [State.restart, State.restart, hprog, hlen]

/-! ## One step -/

/-- Settles O7: the step looks at the run state first. -/
theorem endedRunTakesNoStep : Obligations.EndedRunTakesNoStep := by
  refine fun s => ⟨fun hr => ?halted, step_of_faulted⟩
  simp only [step, hr]

/-- Settles O8: the step runs what the decoder answers, whose new pc is behind that instruction. -/
theorem stepRunsDecodedInstruction : Obligations.StepRunsDecodedInstruction := by
  intro s i npc hr hd
  obtain ⟨-, -, hnpc, -⟩ := decodeAt_ok hd
  exact ⟨step_running hr hd, hnpc⟩

/-- Every step raises a fault with a true record, or completes the decoded instruction in bounds (R90). -/
theorem step_raises_or_completes {s t : State} (h : step s = .next t) :
    s.run = .running ∧ ((∃ f, t = s.raise f ∧ f.Explains t) ∨
      ∃ i, decodeAt s.prog s.pc = .ok (i, s.pc + i.width) ∧ inBounds i s ∧
        t = (effect i s).complete i.width) := by
  obtain ⟨hr, ⟨op, hop, hm, rfl⟩ | ⟨op, m, hop, hm, hlen, rfl⟩ | ⟨i, a, hd, ha, hle, rfl⟩ |
    hcomplete⟩ := step_cases h
  · exact ⟨hr, .inl ⟨_, rfl, explains_unknownOpcode hop hm⟩⟩
  · exact ⟨hr, .inl ⟨_, rfl, explains_truncated hop hm hlen⟩⟩
  · exact ⟨hr, .inl ⟨_, rfl, explains_outOfBounds hd ha hle⟩⟩
  · exact ⟨hr, .inr hcomplete⟩

/-! ## Every step keeps the invariant -/

theorem State.Inv.raise {s : State} (hs : s.Inv) (hr : s.run = .running) {f : FaultRecord}
    (hf : f.Explains (s.raise f)) : (s.raise f).Inv where
  running h := by cases h
  halted h := by cases h
  faulted _ := ⟨(hs.running hr).1, f, rfl, hf⟩
  memWf := hs.memWf
  memBound := hs.memBound

theorem effect_mem_wf {s : State} (h : s.mem.wf = true) (i : Instr) :
    (effect i s).mem.wf = true := by
  cases i with
  | loadConst _ b c => exact h
  | readMem _ b c d => exact h
  | bitOr _ b c d => exact h
  | writeMem _ b c => exact Memory.wf_write _ _ h

/-- An instruction in bounds lists no new cell but one below `MEM_LEN` and below 256 (R126). -/
theorem effect_mem_bound {s : State} {i : Instr} (hb : inBounds i s)
    (h : ∀ a v, (a, v) ∈ s.mem → a < s.memLen ∧ a < 256) (a : Nat) (v : Byte)
    (hmem : (a, v) ∈ (effect i s).mem) : a < s.memLen ∧ a < 256 := by
  cases i with
  | loadConst _ b c => exact h a v hmem
  | readMem _ b c d => exact h a v hmem
  | bitOr _ b c d => exact h a v hmem
  | writeMem _ b c =>
    rcases Memory.mem_write hmem with hold | rfl
    · exact h a v hold
    · exact ⟨hb _ rfl, (s.readReg b).isLt⟩

theorem State.Inv.complete {s : State} (hs : s.Inv) (hr : s.run = .running) {i : Instr} {npc : Nat}
    (hd : decodeAt s.prog s.pc = .ok (i, npc)) (hb : inBounds i s) :
    ((effect i s).complete i.width).Inv := by
  obtain ⟨-, hnone⟩ := hs.running hr
  obtain ⟨-, -, -, hfits⟩ := decodeAt_ok hd
  obtain ⟨hnofault, hfault⟩ := complete_effect_no_fault hr i
  have hrun := complete_effect_run hr i
  refine ⟨fun h => ⟨?inside, hfault.trans hnone⟩, fun h => ⟨?atEnd, hfault.trans hnone⟩,
    fun h => absurd h hnofault, effect_mem_wf hs.memWf i, fun a v hmem => ?bound⟩
  case inside =>
    rw [h] at hrun
    simp only [State.complete_pc, effect_pc, State.complete_prog, effect_prog]
    split_ifs at hrun with hend
    omega
  case atEnd =>
    rw [h] at hrun
    simp only [State.complete_pc, effect_pc, State.complete_prog, effect_prog]
    split_ifs at hrun with hend
    exact hend
  case bound =>
    rw [State.complete_memLen, effect_memLen]
    exact effect_mem_bound hb hs.memBound a v hmem

/-- Settles O4: raising a true record keeps the invariant, and so does completing in bounds. -/
theorem stepKeepsInvariant : Obligations.StepKeepsInvariant := by
  intro s t hs h
  obtain ⟨hr, ⟨f, rfl, hf⟩ | ⟨i, hd, hb, rfl⟩⟩ := step_raises_or_completes h
  · exact hs.raise hr hf
  · exact hs.complete hr hd hb

/-- Settles O5: pc is inside the Program, so there is an opcode byte, and all that can follow answers a next state. -/
theorem runningStateAlwaysSteps : Obligations.RunningStateAlwaysSteps := by
  intro s hs hr
  obtain ⟨hpc, -⟩ := hs.running hr
  cases hd : decodeAt s.prog s.pc with
  | error e =>
    rcases decodeAt_error hd with ⟨-, hnone⟩ | ⟨op, rfl, -⟩ | ⟨op, m, rfl, -⟩
    · exact absurd (List.getElem?_eq_none_iff.1 hnone) (Nat.not_le.2 hpc)
    · exact ⟨_, step_error hr hd⟩
    · exact ⟨_, step_error hr hd⟩
  | ok r =>
    obtain ⟨i, npc⟩ := r
    rcases exec_cases i s with ⟨-, he⟩ | ⟨a, -, -, he⟩
    · exact ⟨_, (step_running hr hd).trans he⟩
    · exact ⟨_, (step_running hr hd).trans he⟩

/-! ## Every state of every run -/

/-- Settles O6: reset meets the invariant and every step keeps it. -/
theorem reachableStatesMeetInvariant : Obligations.ReachableStatesMeetInvariant :=
  fun P n _ _ h => run_invariant stepKeepsInvariant (resetWith_inv P n) h

/-- Settles O34: a reachable memory lists no cell from 256 up. -/
theorem highCellsStayZero : Obligations.HighCellsStayZero := by
  intro P n k t h a ha
  have ht : t.Inv := reachableStatesMeetInvariant P n k t h
  refine Memory.read_eq_zero fun v hv => ?_
  obtain ⟨-, hlt⟩ := ht.memBound a v hv
  omega

theorem step_prog_memLen {s t : State} (h : step s = .next t) :
    t.prog = s.prog ∧ t.memLen = s.memLen := by
  obtain ⟨-, ⟨f, rfl, -⟩ | ⟨i, -, -, rfl⟩⟩ := step_raises_or_completes h
  · exact ⟨rfl, rfl⟩
  · exact ⟨effect_prog i s, effect_memLen i s⟩

/-- Settles O36: no step changes the program store or `MEM_LEN`. -/
theorem programStoreNeverChanges : Obligations.ProgramStoreNeverChanges := by
  intro P n k t h
  refine run_invariant (p := fun s => s.prog = P ∧ s.memLen = n) ?_ ⟨rfl, rfl⟩ h
  rintro s u ⟨hprog, hlen⟩ hu
  obtain ⟨hprog', hlen'⟩ := step_prog_memLen hu
  exact ⟨hprog'.trans hprog, hlen'.trans hlen⟩

end Sys2Proof.Machine

/-! # Termination and the chain of boundaries (O35, O37)

Each completed instruction moves pc by four or five bytes and stays inside the Program, so a run ends within a quarter
of the bytes that remain and one faulting step; and its pc goes along the chain of boundaries. -/

namespace Sys2Proof.Machine

/-! ## The end of a run -/

/-- No step is enabled in Halted or Faulted (R21). -/
theorem step_of_ended {s : State} (h : s.run ≠ .running) : ∃ r, step s = .fault r := by
  obtain ⟨hhalted, hfaulted⟩ := endedRunTakesNoStep s
  cases hr : s.run with
  | running => exact absurd hr h
  | halted => exact ⟨_, hhalted hr⟩
  | faulted => exact ⟨_, hfaulted hr⟩

/-- A run from an ended state has no step. -/
theorem run_of_ended {s t : State} {k : Nat} (hs : s.run ≠ .running)
    (h : Host.Core.run Sys2Proof.core k s = .next t) : k = 0 ∧ t = s := by
  cases k with
  | zero => exact ⟨rfl, run_zero h⟩
  | succ k =>
    obtain ⟨u, hu, -⟩ := run_succ h
    obtain ⟨r, hr⟩ := step_of_ended hs
    rw [hr] at hu
    cases hu

theorem complete_effect_remaining (i : Instr) (s : State) :
    ((effect i s).complete i.width).prog.length - ((effect i s).complete i.width).pc =
      s.prog.length - (s.pc + i.width) := by
  rw [State.complete_prog, effect_prog, State.complete_pc, effect_pc]

/-- From every state that meets the invariant the run ends, within the bytes that remain (R163). -/
theorem exists_run_to_end {s : State} (hs : s.Inv) :
    ∃ (k : Nat) (t : State), Host.Core.run Sys2Proof.core k s = .next t ∧ t.run ≠ .running ∧
      (t.run = .halted → k ≤ (s.prog.length - s.pc) / 4) ∧
      k ≤ (s.prog.length - s.pc) / 4 + 1 ∧ k ≤ s.prog.length - s.pc := by
  by_cases hr : s.run = .running
  · obtain ⟨u, hu⟩ := runningStateAlwaysSteps s hs hr
    obtain ⟨hpc, -⟩ := hs.running hr
    obtain ⟨-, ⟨f, rfl, -⟩ | ⟨i, hd, hb, rfl⟩⟩ := step_raises_or_completes hu
    · refine ⟨1, s.raise f, run_next hu 0, by simp, by simp, ?_, ?_⟩ <;> omega
    · obtain ⟨-, -, -, hfits⟩ := decodeAt_ok hd
      have hwidth : 4 ≤ i.width := by
        rcases i.mnemonic.width_cases with h | h <;> simp only [Instr.width, h] <;> decide
      obtain ⟨k, t, hrun, hend, hhalted, hquarter, hbytes⟩ :=
        exists_run_to_end (hs.complete hr hd hb)
      rw [complete_effect_remaining] at hhalted hquarter hbytes
      refine ⟨k + 1, t, (run_next hu k).trans hrun, hend, fun ht => ?_, ?_, ?_⟩
      · have := hhalted ht
        omega
      · omega
      · omega
  · exact ⟨0, s, rfl, hr, fun _ => Nat.zero_le _, Nat.zero_le _, Nat.zero_le _⟩
termination_by s.prog.length - s.pc
decreasing_by
  rw [complete_effect_remaining]
  omega

/-- Settles O35: the sequencer follows the run to its end and stays there. -/
theorem everyRunEnds : Obligations.EveryRunEnds := by
  refine ⟨fun s hs => exists_run_to_end hs, fun P n => ?_⟩
  obtain ⟨k, t, hrun, hend, -, -, hk⟩ := exists_run_to_end (resetWith_inv P n)
  have hk' : k ≤ P.length := hk
  obtain ⟨r, hr⟩ := step_of_ended hend
  have hfinal : runProgram P n = t := by
    rw [runProgram, ← Nat.add_sub_cancel' hk', State.drive_of_run hrun,
      State.drive_of_fixed (State.advance_of_fault hr)]
  rw [hfinal]
  exact ⟨hend, k, hk', hrun⟩

/-! ## The chain of boundaries -/

theorem boundary_succ {P : List Byte} {j b : Nat} {m : Mnemonic} (hb : boundary P j = some b)
    (hop : P[b]? = some m.opcode) : boundary P (j + 1) = some (b + m.width) := by
  simp only [boundary, hb, hop, Mnemonic.ofOpcode_opcode]

/-- A run that starts at the `j`-th boundary follows the chain from there (R93). -/
theorem run_follows_boundaries {k j : Nat} {s t : State} (hs : s.run ≠ .faulted)
    (hj : boundary s.prog j = some s.pc) (h : Host.Core.run Sys2Proof.core k s = .next t) :
    (t.run ≠ .faulted → boundary s.prog (j + k) = some t.pc) ∧
      (t.run = .faulted → ∃ l, j + k = l + 1 ∧ boundary s.prog l = some t.pc) := by
  induction k generalizing s j with
  | zero =>
    obtain rfl := run_zero h
    exact ⟨fun _ => hj, fun hf => absurd hf hs⟩
  | succ k ih =>
    obtain ⟨u, hu, hrun⟩ := run_succ h
    obtain ⟨hr, ⟨f, rfl, -⟩ | ⟨i, hd, -, rfl⟩⟩ := step_raises_or_completes hu
    · obtain ⟨rfl, rfl⟩ := run_of_ended (by simp) hrun
      exact ⟨fun hok => absurd (s.raise_run f) hok, fun _ => ⟨j, rfl, hj⟩⟩
    · obtain ⟨hop, -, -, -⟩ := decodeAt_ok hd
      have hj' : boundary ((effect i s).complete i.width).prog (j + 1) =
          some ((effect i s).complete i.width).pc := by
        rw [State.complete_prog, effect_prog, State.complete_pc, effect_pc]
        exact boundary_succ hj hop
      have hnext := ih (complete_effect_no_fault hr i).1 hj' hrun
      rwa [Nat.add_right_comm, Nat.add_assoc, State.complete_prog, effect_prog] at hnext

/-- Settles O37: the run starts at boundary 0, and the invariant says where it is Halted. -/
theorem runFollowsBoundaries : Obligations.RunFollowsBoundaries := by
  intro P n k t h
  have hinit : (State.resetWith P n).run ≠ .faulted := by
    cases P <;> simp [State.resetWith]
  obtain ⟨hok, hfault⟩ := run_follows_boundaries (j := 0) hinit rfl h
  rw [Nat.zero_add] at hok hfault
  refine ⟨hok, hfault, ?halted⟩
  obtain ⟨hprog, -⟩ := programStoreNeverChanges P n k t h
  have ht : t.Inv := reachableStatesMeetInvariant P n k t h
  rw [← hprog]
  cases hr : t.run with
  | halted => exact iff_of_true rfl (ht.halted hr).1
  | running => exact iff_of_false (by simp) (ht.running hr).1.ne
  | faulted => exact iff_of_false (by simp) (ht.faulted hr).1.ne

end Sys2Proof.Machine

/-! # The store history of a run (O38)

The log of a run's stores, looked up at a cell, gives what the cell holds: proved for one step and lifted to a run of
any length, as for the registers. -/

namespace Sys2Proof.Machine

/-! ## The store of one step -/

theorem storeOf_of_decodeError {s : State} {e : DecodeError}
    (hd : decodeAt s.prog s.pc = .error e) : storeOf s = [] := by
  cases hr : s.run <;> simp [storeOf, hr, hd]

theorem storeOf_of_outOfBounds {s : State} {i : Instr} {npc a : Nat} (hr : s.run = .running)
    (hd : decodeAt s.prog s.pc = .ok (i, npc)) (ha : dataAddress i s = some a)
    (hle : s.memLen ≤ a) : storeOf s = [] := by
  cases i with
  | loadConst _ b c => cases ha
  | bitOr _ b c d => cases ha
  | readMem _ b c d => simp [storeOf, hr, hd]
  | writeMem _ b c =>
    cases ha
    simp [storeOf, hr, hd, hle]

/-- A log of one store gives what the cell holds after that store. -/
theorem readCell_writeCell_eq_lookup {s : State} (hm : s.mem.wf = true) (a k : Nat) (v : Byte) :
    (s.writeCell a v).readCell k =
      (([(a, v)] : List (Nat × Byte)).lookup k).getD (s.readCell k) := by
  rw [List.lookup_cons, List.lookup_nil]
  by_cases h : k = a
  · subst h
    simp [State.readCell_writeCell_same hm]
  · simp only [beq_false_of_ne h, Option.getD_none, s.readCell_writeCell_other v h]

/-- An instruction that completes changes memory exactly as its logged store says. -/
theorem effect_readCell {s : State} {i : Instr} {npc : Nat} (hm : s.mem.wf = true)
    (hr : s.run = .running) (hd : decodeAt s.prog s.pc = .ok (i, npc)) (hb : inBounds i s)
    (a : Nat) : (effect i s).readCell a = ((storeOf s).lookup a).getD (s.readCell a) := by
  have hnoStore (hlog : storeOf s = []) (hi : storeAddress i s = none) :
      (effect i s).readCell a = ((storeOf s).lookup a).getD (s.readCell a) := by
    rw [hlog, List.lookup_nil, Option.getD_none, effect_readCell_other (by simp [hi])]
  cases i with
  | loadConst _ b c => exact hnoStore (by simp [storeOf, hr, hd]) rfl
  | readMem _ b c d => exact hnoStore (by simp [storeOf, hr, hd]) rfl
  | bitOr _ b c d => exact hnoStore (by simp [storeOf, hr, hd]) rfl
  | writeMem _ b c =>
    have hlog : storeOf s = [(writeMemAddress s b, s.readReg c)] := by
      simp [storeOf, hr, hd, hb _ rfl]
    rw [hlog, ← readCell_writeCell_eq_lookup hm, effect]

/-- After a step every cell holds the step's logged store to it, or what it held before (R29, R141). -/
theorem step_readCell {s t : State} (hm : s.mem.wf = true) (h : step s = .next t) (a : Nat) :
    t.readCell a = ((storeOf s).lookup a).getD (s.readCell a) := by
  obtain ⟨hr, ⟨op, hop, hno, rfl⟩ | ⟨op, m, hop, hsome, hlen, rfl⟩ | ⟨i, b, hd, hb, hle, rfl⟩ |
    ⟨i, hd, hb, rfl⟩⟩ := step_cases h
  · simp [storeOf_of_decodeError (decodeAt_unknownOpcode hop hno)]
  · simp [storeOf_of_decodeError (decodeAt_truncated hop hsome hlen)]
  · simp [storeOf_of_outOfBounds hr hd hb hle]
  · rw [State.complete_readCell, effect_readCell hm hr hd hb]

theorem step_mem_wf {s t : State} (hm : s.mem.wf = true) (h : step s = .next t) :
    t.mem.wf = true := by
  obtain ⟨-, ⟨f, rfl, -⟩ | ⟨i, -, -, rfl⟩⟩ := step_raises_or_completes h
  · exact hm
  · exact effect_mem_wf hm i

/-! ## The stores of a run -/

theorem storeLog_succ {s t : State} (h : step s = .next t) (k : Nat) :
    storeLog (k + 1) s = storeLog k t ++ storeOf s := by
  simp only [storeLog, h]

/-- After a run every cell holds the latest logged store to it, or what it held at the start. -/
theorem run_readCell {k : Nat} {s t : State} (hm : s.mem.wf = true)
    (h : Host.Core.run Sys2Proof.core k s = .next t) (a : Nat) :
    t.readCell a = ((storeLog k s).lookup a).getD (s.readCell a) := by
  induction k generalizing s with
  | zero =>
    rw [run_zero h]
    rfl
  | succ k ih =>
    obtain ⟨u, hu, hrun⟩ := run_succ h
    rw [ih (step_mem_wf hm hu) hrun, step_readCell hm hu, storeLog_succ hu, List.lookup_append,
      Option.getD_or]

/-- Settles O38, by the store log of a run, read at reset where every cell is 0. -/
theorem memoryHoldsLatestStore : Obligations.MemoryHoldsLatestStore := by
  refine ⟨fun s t k a hm h => run_readCell hm h a, fun P n k a t h => ?_⟩
  obtain ⟨hreset, -⟩ := resetStateValues
  obtain ⟨-, -, -, hzero, -⟩ := hreset P n
  rw [run_readCell Memory.wf_nil h, hzero]

end Sys2Proof.Machine

/-! # The ports (O42, O43, O44)

The ports are functions of the state: the snapshot port looks at the run state first, the trace port at the state the
step ends in, and the status output at the fault record, which the invariant ties to the run state. -/

namespace Sys2Proof.Machine

/-- Settles O42: in Halted the answer is a range or a range error, and elsewhere NoSnapshot. -/
theorem snapshotOnlyInHalted : Obligations.SnapshotOnlyInHalted := by
  intro s start stop
  cases hr : s.run with
  | halted =>
    rw [State.snapshot_of_halted hr]
    split_ifs <;> simp
  | running => simp [State.snapshot, hr]
  | faulted => simp [State.snapshot, hr]

theorem traceOutcome_of_no_fault {t : State} (h : t.run ≠ .faulted) : traceOutcome t = .success := by
  cases hr : t.run with
  | running => simp only [traceOutcome, hr]
  | halted => simp only [traceOutcome, hr]
  | faulted => exact absurd hr h

theorem traceOutcome_raise (s : State) (f : FaultRecord) : traceOutcome (s.raise f) = .fault f :=
  rfl

/-- Settles O43: the report is that of the decoder's answer at pc and of the state the step ends in. -/
theorem traceReportsEveryStep : Obligations.TraceReportsEveryStep := by
  intro s t h
  refine ⟨⟨s.pc, s.decoded, traceOutcome t⟩, by simp [State.trace, h], rfl, fun i npc hd => ?instr,
    fun e he => ?noInstr, traceOutcome_of_no_fault, fun hf => ?fault⟩
  case instr => simp only [State.decoded, hd, Instr.toRaw]
  case noInstr => simp only [State.decoded, he]
  case fault =>
    obtain ⟨f, rfl⟩ := step_eq_raise h hf
    exact ⟨f, rfl, traceOutcome_raise s f⟩

/-- Settles O44: the record is there exactly in Faulted, its kind gives the code, and its pc is the state's. -/
theorem statusShowsFault : Obligations.StatusShowsFault := by
  intro P n k t h
  have ht : t.Inv := reachableStatesMeetInvariant P n k t h
  refine ⟨rfl, rfl, ?_⟩
  cases hr : t.run with
  | running => simp [State.status, (ht.running hr).2, statusCode]
  | halted => simp [State.status, (ht.halted hr).2, statusCode]
  | faulted =>
    obtain ⟨-, f, hf, hexplains⟩ := ht.faulted hr
    cases f with
    | unknownOpcode op p =>
      obtain ⟨rfl, -⟩ := hexplains
      simp [State.status, hf, statusCode]
    | truncatedInstruction op p =>
      obtain ⟨rfl, -⟩ := hexplains
      simp [State.status, hf, statusCode]
    | outOfBounds a p =>
      obtain ⟨rfl, -⟩ := hexplains
      simp [State.status, hf, statusCode]

end Sys2Proof.Machine

/-! # The assembler (O45, O46, O47)

The operand tokens are parsed one by one, and an instruction and its untyped form correspond, so a line gives the
instruction of its mnemonic with the values of its tokens. The program's encodings stand one after the other, and each
decodes in its place. -/

namespace Sys2Proof.Machine

/-! ## Untyped instructions -/

theorem rangeOk_toRaw (i : Instr) : i.toRaw.rangeOk = true := by
  have hwf := i.wellFormed_true
  rw [Instr.wellFormed, RawInstr.wellFormed, Bool.and_eq_true] at hwf
  exact hwf.2

/-- The typed instruction of an untyped form is the instruction it is the form of. -/
theorem instrOfRaw_toRaw (i : Instr) : instrOfRaw i.toRaw = some i := by
  rw [instrOfRaw, if_pos (rangeOk_toRaw i)]
  cases i <;> simp [Instr.toRaw, Instr.mnemonic, Instr.operands]

theorem instrOfRaw_of_not_range {r : RawInstr} {n : Nat} (hn : n ∈ r.operands) (h : 255 < n) :
    instrOfRaw r = none := by
  have hrange : r.rangeOk ≠ true := fun hok => by
    have := of_decide_eq_true (List.all_eq_true.1 hok n hn)
    omega
  rw [instrOfRaw, if_neg hrange]

/-- Each mnemonic with as many bytes as its arity is an instruction. -/
theorem exists_instr (m : Mnemonic) {bs : List Byte} (h : bs.length = m.arity) :
    ∃ i : Instr, i.mnemonic = m ∧ i.operands = bs := by
  cases m with
  | loadConst =>
    match bs, h with
    | [a, b, c], _ => exact ⟨.loadConst a b c, rfl, rfl⟩
  | readMem =>
    match bs, h with
    | [a, b, c, d], _ => exact ⟨.readMem a b c d, rfl, rfl⟩
  | bitOr =>
    match bs, h with
    | [a, b, c, d], _ => exact ⟨.bitOr a b c d, rfl, rfl⟩
  | writeMem =>
    match bs, h with
    | [a, b, c], _ => exact ⟨.writeMem a b c, rfl, rfl⟩

/-! ## Operand tokens -/

theorem parseOperands_cons (tok : List Char) (ops : List (List Char)) :
    parseOperands (tok :: ops) =
      (parseDecimal tok).bind fun n => (parseOperands ops).map (List.cons n) := by
  rw [parseOperands]
  cases parseDecimal tok with
  | none => rfl
  | some n => cases parseOperands ops <;> rfl

/-- The operand values are those of the tokens, one by one. -/
theorem parseOperands_eq_some {ops : List (List Char)} {ns : List Nat} :
    parseOperands ops = some ns ↔ ns.map some = ops.map parseDecimal := by
  induction ops generalizing ns with
  | nil => cases ns <;> simp [parseOperands]
  | cons tok ops ih =>
    simp only [parseOperands_cons, Option.bind_eq_some_iff, Option.map_eq_some_iff, ih,
      List.map_cons, List.map_eq_cons_iff]
    constructor
    · rintro ⟨n, hn, ns', hns', rfl⟩
      exact ⟨n, ns', rfl, hn.symm, hns'⟩
    · rintro ⟨n, ns', rfl, hn, hns'⟩
      exact ⟨n, hn.symm, ns', hns', rfl⟩

/-- Tokens of numbers up to 255 are the decimal spellings of a list of bytes. -/
theorem exists_bytes_of_tokens {ops : List (List Char)}
    (h : ∀ tok ∈ ops, ∃ v, parseDecimal tok = some v ∧ v ≤ 255) :
    ∃ bs : List Byte, bs.map (fun o => some o.toNat) = ops.map parseDecimal := by
  rw [← Set.mem_range, Set.range_list_map]
  intro x hx
  obtain ⟨tok, htok, rfl⟩ := List.mem_map.1 hx
  obtain ⟨v, hv, hle⟩ := h tok htok
  have hbyte : (BitVec.ofNat 8 v).toNat = v := Nat.mod_eq_of_lt (by omega)
  exact ⟨BitVec.ofNat 8 v, (congrArg some hbyte).trans hv.symm⟩

/-! ## One line -/

/-- A line of an instruction's mnemonic and operand values assembles to that instruction. -/
theorem assembleTokens_eq_ok {i : Instr} {mn : List Char} {ops : List (List Char)}
    (hm : parseMnemonic mn = some i.mnemonic)
    (hops : i.operands.map (fun o => some o.toNat) = ops.map parseDecimal) (line : Nat) :
    assembleTokens line mn ops = .ok i := by
  have hlen : ops.length = i.mnemonic.arity := by
    rw [← operands_length, ← List.length_map parseDecimal, ← hops, List.length_map]
  have hparse : parseOperands ops = some (i.operands.map BitVec.toNat) := by
    rw [parseOperands_eq_some, ← hops, List.map_map]
    rfl
  have hraw : instrOfRaw ⟨i.mnemonic, i.operands.map BitVec.toNat⟩ = some i := instrOfRaw_toRaw i
  simp [assembleTokens, hm, hlen, hparse, hraw]

/-- One operand token that is no decimal number up to 255 makes the line an error. -/
theorem assembleTokens_operandOutOfRange {m : Mnemonic} {mn tok : List Char}
    {ops : List (List Char)} (hm : parseMnemonic mn = some m) (hlen : ops.length = m.arity)
    (htok : tok ∈ ops) (hbad : ∀ v, parseDecimal tok = some v → 255 < v) (line : Nat) :
    assembleTokens line mn ops = .error (.operandOutOfRange line) := by
  cases hp : parseOperands ops with
  | none => simp [assembleTokens, hm, hlen, hp]
  | some ns =>
    have hmem : parseDecimal tok ∈ ns.map some :=
      (parseOperands_eq_some.1 hp).symm ▸ List.mem_map_of_mem htok
    obtain ⟨v, hv, hvtok⟩ := List.mem_map.1 hmem
    have hraw : instrOfRaw ⟨m, ns⟩ = none :=
      instrOfRaw_of_not_range (r := ⟨m, ns⟩) hv (hbad v hvtok.symm)
    simp [assembleTokens, hm, hlen, hp, hraw]

/-! ## The lines of a text -/

theorem assembleLines_blank {line : List Char} (h : lineTokens line = []) (n : Nat)
    (rest : List (List Char)) : assembleLines n (line :: rest) = assembleLines (n + 1) rest := by
  simp only [assembleLines, h]

theorem assembleLines_error {line mn : List Char} {ops : List (List Char)} {n : Nat} {e : AsmError}
    (h : lineTokens line = mn :: ops) (he : assembleTokens n mn ops = .error e)
    (rest : List (List Char)) : assembleLines n (line :: rest) = .error e := by
  simp only [assembleLines, h, he]

theorem assembleLines_rest_error {line mn : List Char} {ops rest : List (List Char)} {n : Nat}
    {i : Instr} {e : AsmError} (h : lineTokens line = mn :: ops)
    (hi : assembleTokens n mn ops = .ok i) (he : assembleLines (n + 1) rest = .error e) :
    assembleLines n (line :: rest) = .error e := by
  simp only [assembleLines, h, hi, he]

/-- Lines without an error: the first is blank or gives an instruction, and the rest have no error. -/
theorem assembleLines_cons_ok {line : List Char} {rest : List (List Char)} {n : Nat}
    {is : List Instr} (h : assembleLines n (line :: rest) = .ok is) :
    (∃ is', assembleLines (n + 1) rest = .ok is') ∧
      (lineTokens line = [] ∨
        ∃ mn ops i, lineTokens line = mn :: ops ∧ assembleTokens n mn ops = .ok i) := by
  cases htok : lineTokens line with
  | nil =>
    rw [assembleLines_blank htok] at h
    exact ⟨⟨is, h⟩, .inl rfl⟩
  | cons mn ops =>
    cases hi : assembleTokens n mn ops with
    | error e =>
      rw [assembleLines_error htok hi] at h
      cases h
    | ok i =>
      cases hrest : assembleLines (n + 1) rest with
      | error e =>
        rw [assembleLines_rest_error htok hi hrest] at h
        cases h
      | ok is' => exact ⟨⟨is', rfl⟩, .inr ⟨mn, ops, i, rfl, hi⟩⟩

/-- The first line with an error, behind lines without one, aborts the assembly (R73). -/
theorem assembleLines_abort {pre : List (List Char)} {line mn : List Char}
    {ops : List (List Char)} {is : List Instr} {e : AsmError} {n : Nat}
    (hpre : assembleLines n pre = .ok is) (hline : lineTokens line = mn :: ops)
    (he : assembleTokens (n + pre.length) mn ops = .error e) (post : List (List Char)) :
    assembleLines n (pre ++ line :: post) = .error e := by
  induction pre generalizing n is with
  | nil => exact assembleLines_error hline he post
  | cons l pre ih =>
    obtain ⟨⟨is', hpre'⟩, hl⟩ := assembleLines_cons_ok hpre
    have hrest : assembleLines (n + 1) (pre ++ line :: post) = .error e :=
      ih hpre' (by rwa [Nat.add_assoc, Nat.add_comm 1])
    rcases hl with hblank | ⟨mn', ops', i, htok, hi⟩
    · exact (assembleLines_blank hblank n _).trans hrest
    · exact assembleLines_rest_error htok hi hrest

/-- Settles O45: the checks of one line in their order, and the abort at the first line that fails one. -/
theorem assemblerErrors : Obligations.AssemblerErrors := by
  refine ⟨fun line mn ops => ⟨fun hm => ?mnemonic, fun m hm => ⟨fun hlen => ?count, fun hlen =>
    ⟨?range, fun hvalues => ?ok⟩⟩⟩, fun n pre post line mn ops is e hpre hline he => ?abort⟩
  case mnemonic => simp only [assembleTokens, hm]
  case count => simp only [assembleTokens, hm, if_pos hlen]
  case range =>
    rintro ⟨tok, htok, hbad⟩
    exact assembleTokens_operandOutOfRange hm hlen htok hbad line
  case ok =>
    obtain ⟨bs, hbs⟩ := exists_bytes_of_tokens hvalues
    have hbslen : bs.length = m.arity := by
      rw [← hlen, ← List.length_map parseDecimal, ← hbs, List.length_map]
    obtain ⟨i, rfl, rfl⟩ := exists_instr m hbslen
    exact ⟨i, assembleTokens_eq_ok hm hbs line, rfl, hbs⟩
  case abort => exact assembleLines_abort hpre hline he post

/-! ## Spelling and decimal numbers -/

theorem parseMnemonic_spelling (m : Mnemonic) : parseMnemonic (mnemonicSpelling m) = some m := by
  cases m <;> rfl

theorem parseMnemonic_lower (m : Mnemonic) :
    parseMnemonic ((mnemonicSpelling m).map Char.toLower) = some m := by
  cases m <;> rfl

theorem digitChar_isDigit {n : Nat} (h : n < 10) : (digitChar n).isDigit = true := by
  revert n
  decide

theorem digitChar_toNat {n : Nat} (h : n < 10) : (digitChar n).toNat - 48 = n := by
  revert n
  decide

/-- A byte's decimal spelling of one, two or three digits is read as the byte's value. -/
theorem parseDecimal_decimalToken (b : Byte) : parseDecimal (decimalToken b) = some b.toNat := by
  have hb := b.isLt
  have hones := Nat.mod_lt b.toNat (show 10 > 0 by decide)
  rw [decimalToken]
  split_ifs with h1 h2
  · simp [parseDecimal, digitChar_isDigit h1, digitChar_toNat h1]
  · have htens : b.toNat / 10 < 10 := by omega
    simp [parseDecimal, digitChar_isDigit, digitChar_toNat, hones, htens]
    omega
  · have hhundreds : b.toNat / 100 < 10 := by omega
    have htens := Nat.mod_lt (b.toNat / 10) (show 10 > 0 by decide)
    simp [parseDecimal, digitChar_isDigit, digitChar_toNat, hones, htens, hhundreds]
    omega

/-- Settles O46: both spellings are read as the mnemonic, and the operand tokens as the operands' values. -/
theorem assemblerAcceptsEveryInstruction : Obligations.AssemblerAcceptsEveryInstruction := by
  intro i line
  have hops : i.operands.map (fun o => some o.toNat) =
      (i.operands.map decimalToken).map parseDecimal := by
    rw [List.map_map]
    exact List.map_congr_left fun b _ => (parseDecimal_decimalToken b).symm
  exact ⟨assembleTokens_eq_ok (parseMnemonic_spelling i.mnemonic) hops line,
    assembleTokens_eq_ok (parseMnemonic_lower i.mnemonic) hops line⟩

/-! ## The output binary -/

/-- In a concatenation of encodings each instruction is decoded at the end of those before it. -/
theorem decodeAt_flatMap_encode {is : List Instr} {k : Nat} {i : Instr} (h : is[k]? = some i) :
    decodeAt (is.flatMap encode) ((is.take k).flatMap encode).length =
      .ok (i, ((is.take (k + 1)).flatMap encode).length) := by
  have htake : (is.take (k + 1)).flatMap encode = (is.take k).flatMap encode ++ encode i := by
    rw [List.take_add_one, h, List.flatMap_append]
    simp
  have hsplit : is.flatMap encode =
      (is.take k).flatMap encode ++ encode i ++ (is.drop (k + 1)).flatMap encode := by
    rw [← htake, ← List.flatMap_append, List.take_append_drop]
  rw [hsplit, decodeEncodeAgree, htake, List.length_append]

/-- Settles O47: the binary is the concatenation by definition, and each of its encodings decodes in its place. -/
theorem assembledProgramDecodesBack : Obligations.AssembledProgramDecodesBack := by
  intro text bytes h
  cases hp : parseProgram text with
  | error e =>
    simp only [assemble, hp] at h
    cases h
  | ok is =>
    simp only [assemble, hp] at h
    cases h
    exact ⟨is, rfl, rfl, fun k i hi => decodeAt_flatMap_encode hi⟩

end Sys2Proof.Machine
